-- ==== Sys2Proof/Word.lean ====
section
/-! DEFINITION. The word types of CORE (00_scope.md R6, R7, 20_memory.md R40). -/

namespace Sys2Proof

/-- A dword: "a 32-bit unsigned value", the width of every register and of every stack datum (R4 `XLEN`, R6). -/
abbrev Word := BitVec 32

/-- One memory cell, an opcode field, a register id (R5, R40). -/
abbrev Byte := BitVec 8

/-- `u32(v) = v mod 2^32` (R6). -/
def u32 (v : Nat) : Word := BitVec.ofNat 32 v

end Sys2Proof
end

