-- ==== Sys2Proof/Config.lean ====
section
/-! DEFINITION. What one machine of the family fixes: the parameters of 00_scope.md R4, and the free values of
60_exceptions.md R140 (opaque constants: nothing can be proved of their values). -/

namespace Sys2Proof

/-- The 20 mnemonics, in the order of the source's opcode table (30_encoding.md R59). -/
inductive Mnemonic where
  | nop | halt | pushi | pushr | popr | dropi | dupi | overi | swapi | fchi | stri
  | addi | subi | andi | ori | xori | jmp | ifz | call | ret
deriving DecidableEq, Repr

/-- Every mnemonic once, in table order (R59). -/
def Mnemonic.all : List Mnemonic :=
  [.nop, .halt, .pushi, .pushr, .popr, .dropi, .dupi, .overi, .swapi, .fchi, .stri,
   .addi, .subi, .andi, .ori, .xori, .jmp, .ifz, .call, .ret]

/-- The parameter `OPC`: the 8-bit value of each of the 20 opcodes (R4, R59). -/
structure OpcodeMap where
  nop : Byte
  halt : Byte
  pushi : Byte
  pushr : Byte
  popr : Byte
  dropi : Byte
  dupi : Byte
  overi : Byte
  swapi : Byte
  fchi : Byte
  stri : Byte
  addi : Byte
  subi : Byte
  andi : Byte
  ori : Byte
  xori : Byte
  jmp : Byte
  ifz : Byte
  call : Byte
  ret : Byte
deriving DecidableEq, Repr

/-- `OPC(m)` (R59). -/
def OpcodeMap.value (opc : OpcodeMap) : Mnemonic → Byte
  | .nop => opc.nop
  | .halt => opc.halt
  | .pushi => opc.pushi
  | .pushr => opc.pushr
  | .popr => opc.popr
  | .dropi => opc.dropi
  | .dupi => opc.dupi
  | .overi => opc.overi
  | .swapi => opc.swapi
  | .fchi => opc.fchi
  | .stri => opc.stri
  | .addi => opc.addi
  | .subi => opc.subi
  | .andi => opc.andi
  | .ori => opc.ori
  | .xori => opc.xori
  | .jmp => opc.jmp
  | .ifz => opc.ifz
  | .call => opc.call
  | .ret => opc.ret

/-- `OPC` is "any injective map from the 20 mnemonics to 0..255" (R59): no two mnemonics share a value. -/
abbrev OpcodeMap.injective (opc : OpcodeMap) : Prop := (Mnemonic.all.map opc.value).Nodup

/-- The reference assignment of R59, 0x00 to 0x13 in table order.
DESIGN CHOICE (the spec's own, D1), unsafe where a claim rests on these values: log 1. -/
def OpcodeMap.reference : OpcodeMap where
  nop := 0x00
  halt := 0x01
  pushi := 0x02
  pushr := 0x03
  popr := 0x04
  dropi := 0x05
  dupi := 0x06
  overi := 0x07
  swapi := 0x08
  fchi := 0x09
  stri := 0x0A
  addi := 0x0B
  subi := 0x0C
  andi := 0x0D
  ori := 0x0E
  xori := 0x0F
  jmp := 0x10
  ifz := 0x11
  call := 0x12
  ret := 0x13

/-- The names of the four flags, in the order of the source's mask list (10_state.md R28, R29). -/
inductive FlagName where
  | overflow | zero | carry | negative
deriving DecidableEq, Repr

/-- The flag register: "four independent booleans" (10_state.md R26). -/
structure Flags where
  zero : Bool
  negative : Bool
  carry : Bool
  overflow : Bool
deriving DecidableEq, Repr

/-- The implementation parameters of R4. No step ever changes them. -/
structure Config where
  /-- `MEM_SIZE`, the number of byte cells in memory. -/
  memSize : Nat
  /-- `OPC`, the opcode values. -/
  opc : OpcodeMap
  /-- `FLAGS0`, the flags at reset. -/
  flags0 : Flags
deriving DecidableEq, Repr

/-- The values R4 admits: `4 <= MEM_SIZE <= 2^32` (D8) and an injective `OPC` (D1). Every `FLAGS0` is admitted (D2). -/
abbrev Config.wf (c : Config) : Prop :=
  4 ≤ c.memSize ∧ c.memSize ≤ 2 ^ 32 ∧ c.opc.injective

/-- The reference machine: the default `MEM_SIZE` 65536, the reference `OPC`, `FLAGS0` all false (R4).
DESIGN CHOICE, unsafe: log 1, log 2, log 3. -/
def Config.reference : Config where
  memSize := 65536
  opc := OpcodeMap.reference
  flags0 := { zero := false, negative := false, carry := false, overflow := false }

/-! ### Free values

"After a fault only the status and the fault record are defined; the registers, flags and memory hold values this spec
does not fix (any value, for a model)" (60_exceptions.md R140, D4). Each value is an opaque constant applied to the
machine state the fault is raised in and to the fault itself (`σ` is the type of that pair), so that it may depend on
all of them and nothing can be proved of it. Log 6. -/

/-- `sp` after a fault: any value (R140). -/
opaque Config.spAfterFault {σ : Type} : σ → Word

/-- `bp` after a fault: any value (R140). -/
opaque Config.bpAfterFault {σ : Type} : σ → Word

/-- `pc` after a fault: any value (R140). -/
opaque Config.pcAfterFault {σ : Type} : σ → Word

/-- `IR` after a fault: any value ("only the status and the fault record are defined", R140). -/
opaque Config.irAfterFault {σ : Type} : σ → Word

/-- Each flag after a fault: any value (R140). -/
opaque Config.flagAfterFault {σ : Type} : σ → FlagName → Bool

/-- Each memory cell after a fault: any value (R140). -/
opaque Config.byteAfterFault {σ : Type} : σ → Nat → Byte

end Sys2Proof
end

