-- ==== Sys2Proof/Syntax.lean ====
section
/-! DEFINITION. The 20 instructions with their operands (30_encoding.md R57, R65). -/

namespace Sys2Proof

/-- One instruction, with the operands its encoding carries. The register id of PUSHR and POPR is the raw 8-bit field
(R63: every value decodes); the operand of PUSHI, JMP and IF is the inline dword (R64). -/
inductive Instr where
  /-- NOP (R78) -/
  | nop
  /-- HALT (R79) -/
  | halt
  /-- PUSHI imm (R84) -/
  | pushi (imm : Word)
  /-- PUSHR reg (R85) -/
  | pushr (regid : Byte)
  /-- POPR reg (R86) -/
  | popr (regid : Byte)
  /-- DROPI (R87) -/
  | dropi
  /-- DUPI (R88) -/
  | dupi
  /-- OVERI (R89) -/
  | overi
  /-- SWAPI (R90) -/
  | swapi
  /-- FCHI (R100) -/
  | fchi
  /-- STRI (R101) -/
  | stri
  /-- ADDI (R112) -/
  | addi
  /-- SUBI (R113) -/
  | subi
  /-- ANDI (R114) -/
  | andi
  /-- ORI (R115) -/
  | ori
  /-- XORI (R116) -/
  | xori
  /-- JMP target (R125) -/
  | jmp (target : Word)
  /-- IF target (R126): `if` is a word of Lean, so the constructor is `ifz`, branch if zero. -/
  | ifz (target : Word)
  /-- CALL (R127) -/
  | call
  /-- RET (R128) -/
  | ret
deriving DecidableEq, Repr

/-- The row of the opcode table an instruction belongs to (R59). -/
def Instr.mnemonic : Instr → Mnemonic
  | .nop => .nop
  | .halt => .halt
  | .pushi _ => .pushi
  | .pushr _ => .pushr
  | .popr _ => .popr
  | .dropi => .dropi
  | .dupi => .dupi
  | .overi => .overi
  | .swapi => .swapi
  | .fchi => .fchi
  | .stri => .stri
  | .addi => .addi
  | .subi => .subi
  | .andi => .andi
  | .ori => .ori
  | .xori => .xori
  | .jmp _ => .jmp
  | .ifz _ => .ifz
  | .call => .call
  | .ret => .ret

end Sys2Proof
end

