-- ==== Sys2Proof/WellFormed.lean ====
section
/-! DEFINITION. Well-formed instructions: those whose register id names a register (10_state.md R22). -/

namespace Sys2Proof

/-- "Ids 3 to 255 name no register" (R22). -/
def registerIdNamed (regid : Byte) : Bool := regid.toNat ≤ 2

/-- An instruction that an assembler of R66 writes from a register NAME. A word with another register id still decodes
(R63) and still runs: it raises `InvalidRegister` (60_exceptions.md R143). -/
def Instr.wellFormed : Instr → Bool
  | .pushr regid => registerIdNamed regid
  | .popr regid => registerIdNamed regid
  | .nop => true
  | .halt => true
  | .pushi _ => true
  | .dropi => true
  | .dupi => true
  | .overi => true
  | .swapi => true
  | .fchi => true
  | .stri => true
  | .addi => true
  | .subi => true
  | .andi => true
  | .ori => true
  | .xori => true
  | .jmp _ => true
  | .ifz _ => true
  | .call => true
  | .ret => true

end Sys2Proof
end

