-- ==== Sys2Proof/Decode.lean ====
section
/-! DEFINITION. Byte order (20_memory.md R41, R44), instruction fields and formats, the decoder and the encoder
(30_encoding.md R56 to R64). The decoder takes `OPC` as an argument, as R59 asks. -/

namespace Sys2Proof

/-! ### Byte order -/

/-- The dword of four cells, the cell at the lowest address first: `m[a+3] ++ m[a+2] ++ m[a+1] ++ m[a]` (R41). -/
def dwordOfBytes (b0 b1 b2 b3 : Byte) : Word := b3 ++ b2 ++ b1 ++ b0

/-- Byte `k` of a dword, `v[8k+7:8k]` (R42). -/
def dwordByte (v : Word) (k : Nat) : Byte := v.extractLsb' (8 * k) 8

/-- The four cells a dword is stored in, lowest address first (R42). -/
def dwordBytes (v : Word) : List Byte := [dwordByte v 0, dwordByte v 1, dwordByte v 2, dwordByte v 3]

/-! ### Fields and formats -/

/-- `w[7:0]` (R56). -/
def opcodeField (w : Word) : Byte := dwordByte w 0

/-- `w[31:24]` (R56). -/
def regidField (w : Word) : Byte := dwordByte w 3

/-- The three formats of R57. -/
inductive Format where
  /-- opcode only, 4 bytes -/
  | f0
  /-- register id in bits 31:24, 4 bytes -/
  | fr
  /-- an operand dword follows, 8 bytes -/
  | fi
deriving DecidableEq, Repr

/-- The format of each row (R57). -/
def formatOf : Mnemonic → Format
  | .nop => .f0
  | .halt => .f0
  | .pushi => .fi
  | .pushr => .fr
  | .popr => .fr
  | .dropi => .f0
  | .dupi => .f0
  | .overi => .f0
  | .swapi => .f0
  | .fchi => .f0
  | .stri => .f0
  | .addi => .f0
  | .subi => .f0
  | .andi => .f0
  | .ori => .f0
  | .xori => .f0
  | .jmp => .fi
  | .ifz => .fi
  | .call => .f0
  | .ret => .f0

/-- The length in bytes, "a function of its opcode alone" (R58). -/
def lengthOf (m : Mnemonic) : Nat :=
  match formatOf m with
  | .f0 => 4
  | .fr => 4
  | .fi => 8

/-! ### Decoding -/

/-- The row an opcode byte selects, if any (R60). -/
def mnemonicOf (opc : OpcodeMap) (op : Byte) : Option Mnemonic :=
  Mnemonic.all.find? fun m => opc.value m == op

/-- The instruction of row `m` with instruction word `w0` and following dword `w1` (R63, R64). -/
def instrOf (m : Mnemonic) (w0 w1 : Word) : Instr :=
  match m with
  | .nop => .nop
  | .halt => .halt
  | .pushi => .pushi w1
  | .pushr => .pushr (regidField w0)
  | .popr => .popr (regidField w0)
  | .dropi => .dropi
  | .dupi => .dupi
  | .overi => .overi
  | .swapi => .swapi
  | .fchi => .fchi
  | .stri => .stri
  | .addi => .addi
  | .subi => .subi
  | .andi => .andi
  | .ori => .ori
  | .xori => .xori
  | .jmp => .jmp w1
  | .ifz => .ifz w1
  | .call => .call
  | .ret => .ret

/-- Decoding of an instruction word and the dword after it: by the low byte alone (R60). `none` is an invalid opcode (R61). -/
def decodeWords (opc : OpcodeMap) (w0 w1 : Word) : Option Instr :=
  (mnemonicOf opc (opcodeField w0)).map fun m => instrOf m w0 w1

/-- What decoding a list of bytes gives. -/
inductive Decoded where
  /-- an instruction, and the bytes after it -/
  | instr (i : Instr) (rest : List Byte)
  /-- an opcode byte that is `OPC(M)` for no mnemonic (R61) -/
  | invalidOpcode (opcode : Byte)
  /-- the bytes end before the instruction does -/
  | truncated
deriving DecidableEq, Repr

/-- Decoding of any list of bytes, lowest address first (R44, R56 to R58). -/
def decode (opc : OpcodeMap) : List Byte → Decoded
  | b0 :: b1 :: b2 :: b3 :: rest =>
    let w0 := dwordOfBytes b0 b1 b2 b3
    match mnemonicOf opc (opcodeField w0) with
    | none => .invalidOpcode (opcodeField w0)
    | some m =>
      match formatOf m with
      | .f0 => .instr (instrOf m w0 0) rest
      | .fr => .instr (instrOf m w0 0) rest
      | .fi =>
        match rest with
        | c0 :: c1 :: c2 :: c3 :: rest' => .instr (instrOf m w0 (dwordOfBytes c0 c1 c2 c3)) rest'
        | _ => .truncated
  | _ => .truncated

/-! ### Encoding -/

/-- Word 0 of row `m` with byte `hi` in bits 31:24 and the unused bits 0 (R57, R59). -/
def wordZero (opc : OpcodeMap) (m : Mnemonic) (hi : Byte) : Word := dwordOfBytes (opc.value m) 0 0 hi

/-- The instruction words of an instruction, written from the table of R57. -/
def encode (opc : OpcodeMap) : Instr → List Word
  | .nop => [wordZero opc .nop 0]
  | .halt => [wordZero opc .halt 0]
  | .pushi imm => [wordZero opc .pushi 0, imm]
  | .pushr regid => [wordZero opc .pushr regid]
  | .popr regid => [wordZero opc .popr regid]
  | .dropi => [wordZero opc .dropi 0]
  | .dupi => [wordZero opc .dupi 0]
  | .overi => [wordZero opc .overi 0]
  | .swapi => [wordZero opc .swapi 0]
  | .fchi => [wordZero opc .fchi 0]
  | .stri => [wordZero opc .stri 0]
  | .addi => [wordZero opc .addi 0]
  | .subi => [wordZero opc .subi 0]
  | .andi => [wordZero opc .andi 0]
  | .ori => [wordZero opc .ori 0]
  | .xori => [wordZero opc .xori 0]
  | .jmp target => [wordZero opc .jmp 0, target]
  | .ifz target => [wordZero opc .ifz 0, target]
  | .call => [wordZero opc .call 0]
  | .ret => [wordZero opc .ret 0]

/-- The bytes of an instruction in address order (R44, R57). -/
def encodeBytes (opc : OpcodeMap) (i : Instr) : List Byte := (encode opc i).flatMap dwordBytes

/-! ### The host's view of the opcode table -/

/-- The first `n` bytes of the number `w`, byte 0 the least significant. -/
def bytesOfNat : Nat → Nat → List Byte
  | 0, _ => []
  | n + 1, w => BitVec.ofNat 8 w :: bytesOfNat n (w / 256)

/-- The 8 bytes (the longest instruction, R58) of an instruction whose low `nbits` bits are those of `w`, the rest 0. -/
def tableWordBytes (nbits w : Nat) : List Byte := bytesOfNat 8 (w % 2 ^ nbits)

/-- The instruction the decoder reads from a word of the opcode table, under the reference `OPC` that the table gives. -/
def decodeTableWord (nbits w : Nat) : Option Instr :=
  match decode OpcodeMap.reference (tableWordBytes nbits w) with
  | .instr i _ => some i
  | .invalidOpcode _ => none
  | .truncated => none

end Sys2Proof
end

