-- ==== Sys2Proof/Machine/State.lean ====
section
/-! DEFINITION. The whole state of CORE (10_state.md R20 to R37, 20_memory.md R40), its fault kinds
(60_exceptions.md R141 to R143) and its reset values (10_state.md R36). -/

namespace Sys2Proof.Machine

/-- The three fault kinds of 60_exceptions.md R144: the contents of the fault record (10_state.md R35). A fault is an event
of the machine: the tick that raises one takes it (R140) and ends in a next state whose status is `faulted`, so no step
answers `Host.Outcome.fault` (log 7). -/
inductive Fault where
  /-- R141. Raised by the tick when the low byte of the fetched word is no opcode. Safe: the spec fixes it. -/
  | invalidOpcode (opcode : Byte) (offset : Word)
  /-- R142. Raised by every dword access whose four cells are not all in memory; records the base address of the access.
  Safe: the spec fixes it (base address D6, log 10). -/
  | outOfRangeAccess (address : Word)
  /-- R143. Raised by PUSHR and POPR when the register id is 3 to 255. Safe: the spec fixes it (its own choice D3, log 8). -/
  | invalidRegister (regid : Byte) (offset : Word)
deriving DecidableEq, Repr

/-- The reasons for which an instruction could have no meaning. -/
inductive Refusal where
  /-- Answered by no arm of `exec`: every instruction has its meaning. Safe: a refusal claims nothing of the hardware. -/
  | notModelled (mnemonic : String)
deriving DecidableEq, Repr

/-- What one step or one instruction answers. -/
abbrev Outcome := Host.Outcome

/-- The run status (10_state.md R31). -/
inductive RunStatus where
  | running | halted | faulted
deriving DecidableEq, Repr

/-- The memory cells that do not hold 0, by address (20_memory.md R40: every cell is 0 at reset, so 0 is what an unlisted
address reads as). -/
abbrev Memory := List Host.Cell

/-- The one canonical form: addresses strictly rising, no listed cell 0. -/
def Memory.isCanonical (m : Memory) : Bool :=
  decide (m.Pairwise (fun c d => c.1 < d.1) ∧ ∀ c ∈ m, c.2 ≠ 0)

/-- The memory is in its canonical form. -/
abbrev Memory.wf (m : Memory) : Prop := m.isCanonical = true

/-- Every listed cell exists: memory is "indexed 0..mem_size-1" (20_memory.md R40). -/
def Memory.isBelow (m : Memory) (n : Nat) : Bool := decide (∀ c ∈ m, c.1 < n)

/-- Every listed cell lies below `n`. -/
abbrev Memory.below (m : Memory) (n : Nat) : Prop := m.isBelow n = true

/-- The machine. -/
structure State where
  /-- The parameters of 00_scope.md R4; no step writes them (log 4). -/
  config : Config
  /-- Program counter (R24). -/
  pc : Word
  /-- Stack pointer, register id 0 (R21). -/
  sp : Word
  /-- Base pointer, register id 1 (R23). -/
  bp : Word
  /-- The four flags (R26). -/
  flags : Flags
  /-- `IR`, the last-fetched instruction word (R32). -/
  ir : Word
  /-- The run status (R31). -/
  status : RunStatus
  /-- The fault record, `none` while empty (R35). -/
  faultRecord : Option Fault
  /-- Memory (R40). -/
  mem : Memory
deriving DecidableEq, Repr

/-- The `stop` flag: "true exactly when the status is `Halted`" (R31). Stored once, as the status (log 20). -/
def State.stop (s : State) : Bool := s.status == .halted

/-- Every piece of state at its value of R36, before the image load. -/
def State.zeroed (c : Config) : State where
  config := c
  pc := 0
  sp := u32 (c.memSize - 4)
  bp := 0
  flags := c.flags0
  ir := 0
  status := .running
  faultRecord := none
  mem := []

/-- The reference machine right after `Construct` from an empty image (R36, 70_reset_and_hazards.md R170). A program comes
in as the image of `construct` (log 18). -/
def State.reset : State := State.zeroed Config.reference

end Sys2Proof.Machine
end

