-- ==== Sys2Proof/Machine/Flags.lean ====
section
/-! DEFINITION. The flag register's masked write and read (10_state.md R27 to R29), the flag rules of the instructions
(41_stack.md R83) and the fixed-width arithmetic engine with its one-sided overflow (43_arith_logic.md R105 to R108). -/

namespace Sys2Proof.Machine

/-- `SetFlags`: "update only the ones provided, leaving the rest untouched" (R27). -/
def writeFlags (f : Flags) (zero negative carry overflow : Option Bool) : Flags where
  zero := zero.getD f.zero
  negative := negative.getD f.negative
  carry := carry.getD f.carry
  overflow := overflow.getD f.overflow

/-- `SetZN(v)`: zero and negative from the dword, carry and overflow unchanged (R83). -/
def flagsZN (f : Flags) (v : Word) : Flags := writeFlags f (some (v == 0)) (some v.msb) none none

/-- One flag by name. -/
def readFlag (f : Flags) : FlagName → Bool
  | .overflow => f.overflow
  | .zero => f.zero
  | .carry => f.carry
  | .negative => f.negative

/-- The bit of a flag in the status word and in a mask: bit 0 overflow, 1 zero, 2 carry, 3 negative (R29, D13). -/
def flagBit : FlagName → Nat
  | .overflow => 0
  | .zero => 1
  | .carry => 2
  | .negative => 3

/-- The flags read as one 4-bit status word (R29). -/
def statusWord (f : Flags) : BitVec 4 :=
  BitVec.ofBool f.negative ++ BitVec.ofBool f.carry ++ BitVec.ofBool f.zero ++ BitVec.ofBool f.overflow

/-- `Select(mask)`: "only those fields", here each named flag with its value (R28); bit positions as in R29. -/
def selectFlags (f : Flags) (mask : BitVec 4) : List (FlagName × Bool) :=
  ([.overflow, .zero, .carry, .negative].filter fun n => mask.getLsbD (flagBit n)).map fun n => (n, readFlag f n)

/-- `add_w(a, b)` (R105) on operands of `n` bits; the engine's width is `n = 8 * w` bits for `w >= 1` bytes, and CORE calls
it with `n = 32` (R107). -/
def addEngine {n : Nat} (a b : BitVec n) : BitVec n × Flags :=
  let s := a.toNat + b.toNat
  let r := BitVec.ofNat n s
  (r, { zero := r == 0
        negative := r.msb
        carry := decide (s > 2 ^ n - 1)
        overflow := !a.msb && !b.msb && r.msb })

/-- `sub_w(a, b)` (R106) on operands of `n` bits: the mathematical `(a - b) mod 2^n`, carry an unsigned borrow. -/
def subEngine {n : Nat} (a b : BitVec n) : BitVec n × Flags :=
  let r := BitVec.ofInt n ((a.toNat : Int) - (b.toNat : Int))
  (r, { zero := r == 0
        negative := r.msb
        carry := decide (a.toNat < b.toNat)
        overflow := a.msb && !b.msb && !r.msb })

end Sys2Proof.Machine
end

