-- ==== Sys2Proof/Machine/Ops.lean ====
section
/-! DEFINITION. The named operations over registers and memory (20_memory.md R41 to R48), the stack helpers
(41_stack.md R80 to R83) and taking a fault (60_exceptions.md R140).

An operation that can raise answers `Except.error` with the fault; `commit` then takes it. -/

namespace Sys2Proof.Machine

/-! ### Single-field updates -/

/-- `pc <- v` (00_scope.md R8). -/
def State.setPc (s : State) (v : Word) : State := { s with pc := v }

/-- `sp <- v`. -/
def State.setSp (s : State) (v : Word) : State := { s with sp := v }

/-- `bp <- v`. -/
def State.setBp (s : State) (v : Word) : State := { s with bp := v }

/-- `IR <- w`. -/
def State.setIr (s : State) (w : Word) : State := { s with ir := w }

/-- The flag register after a `SetFlags`. -/
def State.setFlags (s : State) (f : Flags) : State := { s with flags := f }

/-- The run status. -/
def State.setStatus (s : State) (r : RunStatus) : State := { s with status := r }

/-- The memory. -/
def State.setMem (s : State) (m : Memory) : State := { s with mem := m }

/-! ### Cells -/

/-- `m[a]`: what an unlisted address reads as is 0 (R40). -/
def Memory.readByte : Memory → Nat → Byte
  | [], _ => 0
  | (k, b) :: rest, a => if a = k then b else Memory.readByte rest a

/-- `m[a] <- b`, keeping the canonical form: writing 0 removes the entry. -/
def Memory.writeByte : Memory → Nat → Byte → Memory
  | [], a, b => if b = 0 then [] else [(a, b)]
  | (k, c) :: rest, a, b =>
    if a < k then (if b = 0 then (k, c) :: rest else (a, b) :: (k, c) :: rest)
    else if a = k then (if b = 0 then rest else (a, b) :: rest)
    else (k, c) :: Memory.writeByte rest a b

/-- The memory of `n` cells whose cell `a` holds `f a`. -/
def Memory.tabulate (n : Nat) (f : Nat → Byte) : Memory :=
  (List.range n).filterMap fun a => if f a = 0 then none else some (a, f a)

/-! ### Dwords -/

/-- `RangeCheck(a)`: `a + 3 <= MEM_SIZE - 1`, computed on unbounded integers (R43). -/
abbrev State.inRange (s : State) (a : Word) : Prop := a.toNat + 3 < s.config.memSize

/-- The dword in the four cells from `a`, little-endian (R41, R44). -/
def Memory.dword (m : Memory) (a : Nat) : Word :=
  dwordOfBytes (m.readByte a) (m.readByte (a + 1)) (m.readByte (a + 2)) (m.readByte (a + 3))

/-- The dword the cells from address `a` hold, without a range check. -/
def State.dwordAt (s : State) (a : Word) : Word := s.mem.dword a.toNat

/-- The four cell writes of `MemWrite`, least significant byte first (R42). -/
def Memory.writeDword (m : Memory) (a : Nat) (v : Word) : Memory :=
  (((m.writeByte a (dwordByte v 0)).writeByte (a + 1) (dwordByte v 1)).writeByte (a + 2) (dwordByte v 2)).writeByte
    (a + 3) (dwordByte v 3)

/-- `MemRead(a, 4)` (R41). -/
def memRead (s : State) (a : Word) : Except Fault Word :=
  if s.inRange a then .ok (s.dwordAt a) else .error (.outOfRangeAccess a)

/-- `MemWrite(a, 4, v)` (R42): the whole dword is checked before any cell changes (R43). -/
def memWrite (s : State) (a v : Word) : Except Fault State :=
  if s.inRange a then .ok (s.setMem (s.mem.writeDword a.toNat v)) else .error (.outOfRangeAccess a)

/-! ### Image load -/

/-- `LoadImage` from address `a` on: byte after byte until the source ends or `MEM_SIZE` is reached (R47, R48). The byte
source is a finite list, its end the end-of-input marker (N20, log 19). -/
def loadImage (memSize : Nat) (m : Memory) (a : Nat) : List Byte → Memory
  | [] => m
  | b :: src => if a < memSize then loadImage memSize (m.writeByte a b) (a + 1) src else m

/-- The bytes `bs` written to the cells from address `a` on, wrapping modulo 2^32 as `pc` does (D7), those only that exist:
what `State.withFetchWord` puts where the next fetch reads. -/
def placeBytes (memSize : Nat) (m : Memory) (a : Word) : List Byte → Memory
  | [] => m
  | b :: bs => placeBytes memSize (if a.toNat < memSize then m.writeByte a.toNat b else m) (a + 1) bs

/-! ### Stack helpers -/

/-- `Push(v)`: `sp` lowered by 4 through the arithmetic engine, its flags discarded, then the write (R80). -/
def push (s : State) (v : Word) : Except Fault State :=
  let sp' := (subEngine s.sp 4).1
  memWrite (s.setSp sp') sp' v

/-- `Pop()`: the read, then `sp` raised by 4 modulo 2^32 (R81, D7). -/
def pop (s : State) : Except Fault (Word × State) := do
  let v ← memRead s s.sp
  pure (v, s.setSp (s.sp + 4))

/-- `Peek(k)`: the dword at `u32(sp + 4*k)` (R82). -/
def peek (s : State) (k : Nat) : Except Fault Word := memRead s (s.sp + u32 (4 * k))

/-- `SetZN(v)` on the machine (R83). -/
def setZN (s : State) (v : Word) : State := s.setFlags (flagsZN s.flags v)

/-! ### Taking a fault -/

/-- The numeric code of a fault (R141 to R143, D18). -/
def faultCode : Fault → Nat
  | .invalidOpcode _ _ => 1
  | .outOfRangeAccess _ => 2
  | .invalidRegister _ _ => 3

/-- Taking a fault (R140): the record is written and the status becomes `Faulted`; the registers, `IR`, the flags and the
memory are free values, a function of the machine the fault is raised in and of the fault of which nothing is known
(log 6). Nothing is saved and nothing is jumped to (R147), and no return from a fault exists (R148). -/
def takeFault (s : State) (f : Fault) : State where
  config := s.config
  pc := Config.pcAfterFault (s, f)
  sp := Config.spAfterFault (s, f)
  bp := Config.bpAfterFault (s, f)
  flags :=
    { zero := Config.flagAfterFault (s, f) .zero
      negative := Config.flagAfterFault (s, f) .negative
      carry := Config.flagAfterFault (s, f) .carry
      overflow := Config.flagAfterFault (s, f) .overflow }
  ir := Config.irAfterFault (s, f)
  status := .faulted
  faultRecord := some f
  mem := Memory.tabulate s.config.memSize (Config.byteAfterFault (s, f))

/-- The end of a handler started in `s`: its next state, or the fault it raised, taken (R140, R145). -/
def commit (s : State) : Except Fault State → Host.Outcome State Fault Refusal
  | .ok t => .next t
  | .error f => .next (takeFault s f)

end Sys2Proof.Machine
end

