-- ==== Sys2Proof/Machine/Operands.lean ====
section
/-! DEFINITION. Operand forms: registers by id (10_state.md R22), the inline dword (40_engine.md R71), the extensions of
00_scope.md R8, and the two shapes of stack operands shared by several instructions (41_stack.md, 43_arith_logic.md R111). -/

namespace Sys2Proof.Machine

/-- The three registers (10_state.md R20). -/
inductive RegName where
  | sp | bp | pc
deriving DecidableEq, Repr

/-- "id 0 is `sp`, id 1 is `bp`, id 2 is `pc`"; ids 3 to 255 name no register (R22). -/
def regOfId (regid : Byte) : Option RegName :=
  if regid = 0 then some .sp
  else if regid = 1 then some .bp
  else if regid = 2 then some .pc
  else none

/-- `x[i]` (00_scope.md R8). -/
def readReg (s : State) : RegName → Word
  | .sp => s.sp
  | .bp => s.bp
  | .pc => s.pc

/-- `x[i] <- v` (00_scope.md R8). No register is hardwired (10_state.md R20). -/
def writeReg (s : State) (r : RegName) (v : Word) : State :=
  match r with
  | .sp => s.setSp v
  | .bp => s.setBp v
  | .pc => s.setPc v

/-- The `offset` of the running tick: while a handler of a 4-byte instruction runs `pc` is `u32(offset + 4)` (10_state.md
R24), so the offset is `u32(pc - 4)`. DEDUCED, safe: log 17. -/
def State.offset (s : State) : Word := s.pc - 4

/-- The register a PUSHR or POPR names, or the fault of 60_exceptions.md R143. -/
def namedReg (s : State) (regid : Byte) : Except Fault RegName :=
  match regOfId regid with
  | some r => .ok r
  | none => .error (.invalidRegister regid s.offset)

/-- `FetchOperand()` as 40_engine.md R71 words it: read the dword at `pc`, move `pc` past it. -/
def fetchOperand (s : State) : Except Fault (Word × State) := do
  let v ← memRead s s.pc
  pure (v, s.setPc (s.pc + 4))

/-- `FetchOperand()` where the decoder has already put the dword at `pc` into the instruction: what is left of it is its range
check, at its place in the handler's order, and the move of `pc`. On the decoded operand it is `fetchOperand`
(`takeOperand_eq_fetchOperand`). DEDUCED, safe: log 16. -/
def takeOperand (s : State) : Except Fault State :=
  if s.inRange s.pc then .ok (s.setPc (s.pc + 4)) else .error (.outOfRangeAccess s.pc)

/-- `zext_N(v)`: "defined for completeness", used by no instruction (00_scope.md R8). -/
def zext {n : Nat} (v : BitVec n) : Word := v.setWidth 32

/-- `sext_N(v)`: "defined for completeness", used by no instruction (00_scope.md R8). -/
def sext {n : Nat} (v : BitVec n) : Word := v.signExtend 32

/-- Push a dword and set zero and negative from it: PUSHI, PUSHR, DUPI, OVERI (41_stack.md R84, R85, R88, R89). -/
def pushZN (s : State) (v : Word) : Except Fault State := do
  let t ← push s v
  pure (setZN t v)

/-- Pop b (the top), then a (43_arith_logic.md R111). -/
def popTwo (s : State) : Except Fault (Word × Word × State) := do
  let (b, s1) ← pop s
  let (a, s2) ← pop s1
  pure (a, b, s2)

/-- A two-operand instruction whose result and all four flags come from the arithmetic engine (R112, R113). -/
def engineOp (op : Word → Word → Word × Flags) (s : State) : Except Fault State := do
  let (a, b, s2) ← popTwo s
  let t ← push s2 (op a b).1
  pure (t.setFlags (writeFlags t.flags (some (op a b).2.zero) (some (op a b).2.negative)
    (some (op a b).2.carry) (some (op a b).2.overflow)))

/-- A two-operand bitwise instruction: zero and negative of the result (R114 to R116). -/
def bitwiseOp (op : Word → Word → Word) (s : State) : Except Fault State := do
  let (a, b, s2) ← popTwo s
  pushZN s2 (op a b)

end Sys2Proof.Machine
end

