-- ==== Sys2Proof/Machine/ArithLogic.lean ====
section
/-! DEFINITION. Arithmetic and logic instructions (43_arith_logic.md R111 to R116). -/

namespace Sys2Proof.Machine

/-- ADDI (R112). -/
def execAddi (s : State) : Host.Outcome State Fault Refusal := commit s (engineOp addEngine s)

/-- SUBI (R113): second minus top. -/
def execSubi (s : State) : Host.Outcome State Fault Refusal := commit s (engineOp subEngine s)

/-- ANDI (R114). Bit by bit: PRESUMED by the spec itself (general knowledge), log 21. -/
def execAndi (s : State) : Host.Outcome State Fault Refusal := commit s (bitwiseOp (fun a b => a &&& b) s)

/-- ORI (R115), inclusive. -/
def execOri (s : State) : Host.Outcome State Fault Refusal := commit s (bitwiseOp (fun a b => a ||| b) s)

/-- XORI (R116). -/
def execXori (s : State) : Host.Outcome State Fault Refusal := commit s (bitwiseOp (fun a b => a ^^^ b) s)

end Sys2Proof.Machine
end

