-- ==== Sys2Proof/Machine/Control.lean ====
section
/-! DEFINITION. Control-transfer instructions (44_control.md R125 to R129). -/

namespace Sys2Proof.Machine

/-- JMP target (R125): no check of the target (R129). -/
def execJmp (target : Word) (s : State) : Host.Outcome State Fault Refusal := commit s do
  let s1 ← takeOperand s
  pure (s1.setPc target)

/-- IF target (R126): the condition is popped first, the operand is consumed either way, the branch is taken when all 32 bits
of the condition are 0. -/
def execIfz (target : Word) (s : State) : Host.Outcome State Fault Refusal := commit s do
  let (c, s1) ← pop s
  let s2 ← takeOperand s1
  pure (if c = 0 then s2.setPc target else s2)

/-- CALL (R127): the return address takes the target's place on the stack. -/
def execCall (s : State) : Host.Outcome State Fault Refusal := commit s do
  let (target, s1) ← pop s
  let s2 ← push s1 s1.pc
  pure (s2.setPc target)

/-- RET (R128). -/
def execRet (s : State) : Host.Outcome State Fault Refusal := commit s do
  let (r, s1) ← pop s
  pure (s1.setPc r)

end Sys2Proof.Machine
end

