-- ==== Sys2Proof/Machine/Engine.lean ====
section
/-! DEFINITION. Fetch and decode of one tick, NOP and HALT (40_engine.md R70 to R72, R78, R79). -/

namespace Sys2Proof.Machine

/-- `w <- MemRead(pc, 4); IR <- w; pc <- u32(pc + 4)` (R70). -/
def fetchWord (s : State) : Except Fault (Word × State) := do
  let w ← memRead s s.pc
  pure (w, (s.setIr w).setPc (s.pc + 4))

/-- The fetch and decode half of a tick (R70, R60): the instruction and the machine its handler starts in, or the fault.
The dword after the instruction word goes into the instruction as its operand where the format has one; whether all of it
exists is checked by the handler (`takeOperand`), which an FI handler always calls before the operand matters. -/
def fetchDecode (s : State) : Except Fault (Instr × State) := do
  let (w, t) ← fetchWord s
  match decodeWords s.config.opc w (t.dwordAt t.pc) with
  | some i => pure (i, t)
  | none => throw (.invalidOpcode (opcodeField w) s.pc)

/-- NOP: nothing (R78). -/
def execNop (s : State) : Host.Outcome State Fault Refusal := commit s (.ok s)

/-- HALT: `stop <- true ; status <- Halted` (R79). -/
def execHalt (s : State) : Host.Outcome State Fault Refusal := commit s (.ok (s.setStatus .halted))

end Sys2Proof.Machine
end

