-- ==== Sys2Proof/Machine/MemoryOps.lean ====
section
/-! DEFINITION. Memory-access instructions (42_memory_ops.md R100, R101). -/

namespace Sys2Proof.Machine

/-- FCHI (R100). -/
def execFchi (s : State) : Host.Outcome State Fault Refusal := commit s do
  let (address, s1) ← pop s
  let v ← memRead s1 address
  pushZN s1 v

/-- STRI (R101): the address is on top, the value beneath it. -/
def execStri (s : State) : Host.Outcome State Fault Refusal := commit s do
  let (v, address, s2) ← popTwo s
  let s3 ← memWrite s2 address v
  pure (setZN s3 v)

end Sys2Proof.Machine
end

