-- ==== Sys2Proof/Machine/Stack.lean ====
section
/-! DEFINITION. Stack and register-transfer instructions (41_stack.md R84 to R90). -/

namespace Sys2Proof.Machine

/-- PUSHI imm (R84). -/
def execPushi (imm : Word) (s : State) : Host.Outcome State Fault Refusal := commit s do
  let s1 ← takeOperand s
  pushZN s1 imm

/-- PUSHR reg (R85): the register is read before the push moves `sp`. -/
def execPushr (regid : Byte) (s : State) : Host.Outcome State Fault Refusal := commit s do
  let r ← namedReg s regid
  pushZN s (readReg s r)

/-- POPR reg (R86): the register is written after the pop has moved `sp`. -/
def execPopr (regid : Byte) (s : State) : Host.Outcome State Fault Refusal := commit s do
  let r ← namedReg s regid
  let (v, s1) ← pop s
  pure (setZN (writeReg s1 r v) v)

/-- DROPI (R87). -/
def execDropi (s : State) : Host.Outcome State Fault Refusal := commit s do
  let (_, s1) ← pop s
  pure s1

/-- DUPI (R88). -/
def execDupi (s : State) : Host.Outcome State Fault Refusal := commit s do
  let v ← peek s 0
  pushZN s v

/-- OVERI (R89). -/
def execOveri (s : State) : Host.Outcome State Fault Refusal := commit s do
  let v ← peek s 1
  pushZN s v

/-- SWAPI (R90): the former top goes below, the former second on top. -/
def execSwapi (s : State) : Host.Outcome State Fault Refusal := commit s do
  let (second, top, s2) ← popTwo s
  let s3 ← push s2 top
  pushZN s3 second

end Sys2Proof.Machine
end

