-- ==== Sys2Proof/Machine/Dispatch.lean ====
section
/-! DEFINITION. One arm per instruction (40_engine.md R72). The state is the one the handler starts in: `IR` holds the
fetched word and `pc` is past it. -/

namespace Sys2Proof.Machine

def exec (i : Instr) (s : State) : Host.Outcome State Fault Refusal :=
  match i with
  | .nop => Sys2Proof.Machine.execNop s
  | .halt => Sys2Proof.Machine.execHalt s
  | .pushi imm => Sys2Proof.Machine.execPushi imm s
  | .pushr regid => Sys2Proof.Machine.execPushr regid s
  | .popr regid => Sys2Proof.Machine.execPopr regid s
  | .dropi => Sys2Proof.Machine.execDropi s
  | .dupi => Sys2Proof.Machine.execDupi s
  | .overi => Sys2Proof.Machine.execOveri s
  | .swapi => Sys2Proof.Machine.execSwapi s
  | .fchi => Sys2Proof.Machine.execFchi s
  | .stri => Sys2Proof.Machine.execStri s
  | .addi => Sys2Proof.Machine.execAddi s
  | .subi => Sys2Proof.Machine.execSubi s
  | .andi => Sys2Proof.Machine.execAndi s
  | .ori => Sys2Proof.Machine.execOri s
  | .xori => Sys2Proof.Machine.execXori s
  | .jmp target => Sys2Proof.Machine.execJmp target s
  | .ifz target => Sys2Proof.Machine.execIfz target s
  | .call => Sys2Proof.Machine.execCall s
  | .ret => Sys2Proof.Machine.execRet s

end Sys2Proof.Machine
end

