-- ==== Sys2Proof/Machine/Step.lean ====
section
/-! DEFINITION. The step: one `Tick()` (40_engine.md R70, R73), and the placing of a word where it is fetched. -/

namespace Sys2Proof.Machine

/-- `Tick()` (R70). On a machine that is not running nothing changes (R73). -/
def step (s : State) : Host.Outcome State Fault Refusal :=
  match s.status with
  | .halted => .next s
  | .faulted => .next s
  | .running =>
    match fetchDecode s with
    | .error f => .next (takeFault s f)
    | .ok (i, t) => exec i t

/-- `s` with the 8 bytes of an opcode-table word (the bits above `nbits` 0) in the cells `pc` to `pc + 7` that exist, and
running with an empty fault record, as a fetch needs. It stands for the image load (log 18). -/
def State.withFetchWord (s : State) (nbits w : Nat) : State :=
  { s with
    status := .running
    faultRecord := none
    mem := placeBytes s.config.memSize s.mem s.pc (tableWordBytes nbits w) }

end Sys2Proof.Machine
end

