-- ==== Sys2Proof/Machine/Interface.lean ====
section
/-! DEFINITION. The host interface of 10_state.md R33: Construct, Tick, Run and Inspect. There is no operation that writes
state after Construct (R33, R34). -/

namespace Sys2Proof.Machine

/-- `Construct(MEM_SIZE, src)` (70_reset_and_hazards.md R170): every piece of state to its reset value, then the image. -/
def construct (c : Config) (src : List Byte) : State :=
  (State.zeroed c).setMem (loadImage c.memSize (State.zeroed c).mem 0 src)

/-- What `Tick` returns (R33). -/
inductive TickResult where
  /-- `Ok` -/
  | ok
  /-- the fault of that tick -/
  | fault (f : Fault)
deriving DecidableEq, Repr

/-- The result `Tick` returns when it takes `s` to `t`: the fault, when this tick took one (60_exceptions.md R140); `Ok`
otherwise, on a machine already stopped too (40_engine.md R73). -/
def tickResult (s t : State) : TickResult :=
  match s.status, t.status, t.faultRecord with
  | .running, .faulted, some f => .fault f
  | _, _, _ => .ok

/-- The `Tick` operation: the state after it and its result. -/
def tick (s : State) : Host.Outcome (State × TickResult) Fault Refusal :=
  match step s with
  | .next t => .next (t, tickResult s t)
  | .fault f => .fault f
  | .refused r => .refused r

/-- How `Run` ends, with the machine it leaves. -/
inductive RunResult where
  /-- halted: the exit value (40_engine.md R75) -/
  | exit (value : Word) (s : State)
  /-- faulted: the fault record -/
  | fault (f : Option Fault) (s : State)
  /-- the step budget is used up: "not yet terminated" (40_engine.md R76) -/
  | notYet (s : State)
deriving DecidableEq, Repr

/-- The end of `Run` (R74): the fault record, or the exit read at `sp`, whose own fault is taken too (R75, D16). -/
def runEnd (s : State) : RunResult :=
  match s.status with
  | .running => .notYet s
  | .faulted => .fault s.faultRecord s
  | .halted =>
    match memRead s s.sp with
    | .ok v => .exit v s
    | .error f => .fault (some f) (takeFault s f)

/-- `Run()` under a budget of ticks (R74, R76). -/
def run : Nat → State → RunResult
  | 0, s => runEnd s
  | n + 1, s =>
    match s.status with
    | .halted => runEnd s
    | .faulted => runEnd s
    | .running =>
      match step s with
      | .next t => run n t
      | .fault _ => .notYet s
      | .refused _ => .notYet s

/-- What the host may ask (R33). -/
inductive Query where
  | register (r : RegName)
  | registerId (regid : Byte)
  | memory (address : Word)
  | flags (mask : BitVec 4)
  | statusWord
  | stop
  | instructionWord
  | runStatus
  | faultRecord
deriving DecidableEq, Repr

/-- What the host is told. -/
inductive Answer where
  | word (v : Word)
  /-- the register id names no register (10_state.md R22) -/
  | noRegister
  /-- the fault kind of a memory address out of range, returned to the host and not raised in CORE (R33, D10) -/
  | error (f : Fault)
  | flags (fs : List (FlagName × Bool))
  | bits (v : BitVec 4)
  | truth (b : Bool)
  | status (r : RunStatus)
  | record (f : Option Fault)
deriving DecidableEq, Repr

/-- `Inspect`: it answers a value and leaves the machine as it is (R33). -/
def inspect (s : State) : Query → Answer
  | .register r => .word (readReg s r)
  | .registerId regid =>
    match regOfId regid with
    | some r => .word (readReg s r)
    | none => .noRegister
  | .memory address =>
    match memRead s address with
    | .ok v => .word v
    | .error f => .error f
  | .flags mask => .flags (selectFlags s.flags mask)
  | .statusWord => .bits (statusWord s.flags)
  | .stop => .truth s.stop
  | .instructionWord => .word s.ir
  | .runStatus => .status s.status
  | .faultRecord => .record s.faultRecord

end Sys2Proof.Machine
end

