-- ==== Sys2Proof/Safety.lean ====
section
/-! DEFINITION. The terms claims are stated in: the machine invariant, what a store changes, taking a fault, safe runs. -/

namespace Sys2Proof.Machine

/-- What every machine that `Construct` makes satisfies and every step keeps: the parameters are admitted by 00_scope.md R4,
the memory is in its canonical form and lists only cells that exist (20_memory.md R40), and the fault record is written
exactly when the status is `Faulted` (10_state.md R31, R35). -/
abbrev State.inv (s : State) : Prop :=
  s.config.wf ∧ s.mem.wf ∧ s.mem.below s.config.memSize ∧ (s.faultRecord.isSome ↔ s.status = .faulted)

/-- Every cell outside the dword at `a` reads in `m'` as in `m`: "No other cell changes" (20_memory.md R42). -/
def SameOutside (a : Word) (m m' : Memory) : Prop :=
  ∀ k : Nat, k < a.toNat ∨ a.toNat + 4 ≤ k → m'.readByte k = m.readByte k

/-- `m'` is `m` after a store of the dword `v` at `a`: the dword reads back and no other cell has changed (R41, R42). -/
def DwordStored (m m' : Memory) (a v : Word) : Prop := m'.dword a.toNat = v ∧ SameOutside a m m'

/-- The flags after `SetZN(v)` (41_stack.md R83). -/
def zeroNegativeOf (f : Flags) (v : Word) : Flags := { f with zero := decide (v = 0), negative := v.getLsbD 31 }

/-- `fs` is what the mask selects of the flags `f`: bit 0 of the mask selects overflow, bit 1 zero, bit 2 carry, bit 3
negative, each with its value, and nothing else is there (10_state.md R28, R29). -/
def MaskSelects (f : Flags) (mask : BitVec 4) (fs : List (FlagName × Bool)) : Prop :=
  (∀ b : Bool, (FlagName.overflow, b) ∈ fs ↔ mask.getLsbD 0 = true ∧ b = f.overflow) ∧
  (∀ b : Bool, (FlagName.zero, b) ∈ fs ↔ mask.getLsbD 1 = true ∧ b = f.zero) ∧
  (∀ b : Bool, (FlagName.carry, b) ∈ fs ↔ mask.getLsbD 2 = true ∧ b = f.carry) ∧
  (∀ b : Bool, (FlagName.negative, b) ∈ fs ↔ mask.getLsbD 3 = true ∧ b = f.negative)

/-- `w` is the status word of the flags `f`: bit 0 overflow, bit 1 zero, bit 2 carry, bit 3 negative (10_state.md R29). -/
def IsStatusWord (f : Flags) (w : BitVec 4) : Prop :=
  w.getLsbD 0 = f.overflow ∧ w.getLsbD 1 = f.zero ∧ w.getLsbD 2 = f.carry ∧ w.getLsbD 3 = f.negative

/-- Row `m` of the opcode table has instructions of `n` bytes, and a word whose low byte is `OPC(m)`, followed in memory by
the dword `v`, is the instruction `i v`: the line "Encoding" of an instruction rule (30_encoding.md R57, R58). -/
def EncodedAs (m : Mnemonic) (n : Nat) (i : Word → Instr) : Prop :=
  lengthOf m = n ∧ ∀ opc : OpcodeMap, opc.injective → ∀ w v : Word, opc.value m = w.extractLsb' 0 8 →
    decodeWords opc w v = some (i v)

/-- The instruction `i`, started in `s`, takes the fault `f`: a next state with the status `Faulted`, the record `f` and
the same parameters; all else is left open (60_exceptions.md R140). -/
def Faults (i : Instr) (s : State) (f : Fault) : Prop :=
  ∃ t, exec i s = .next t ∧ t.status = .faulted ∧ t.faultRecord = some f ∧ t.config = s.config

/-- The tick from `s` takes the fault `f`. -/
def TickFaults (s : State) (f : Fault) : Prop :=
  ∃ t, step s = .next t ∧ t.status = .faulted ∧ t.faultRecord = some f ∧ t.config = s.config

/-- The fault of an instruction that first pops (60_exceptions.md R142). -/
def PopFaults (i : Instr) (s : State) : Prop := ¬s.inRange s.sp → Faults i s (.outOfRangeAccess s.sp)

/-- The faults of an instruction that first pops twice (60_exceptions.md R142). -/
def TwoPopFaults (i : Instr) (s : State) : Prop :=
  PopFaults i s ∧ (s.inRange s.sp → ¬s.inRange (s.sp + 4) → Faults i s (.outOfRangeAccess (s.sp + 4)))

/-- A safe run: the first `n` steps from `s` leave a machine that has not faulted. -/
def SafeFor (n : Nat) (s : State) : Prop :=
  ∃ t, Host.Core.run Sys2Proof.core n s = .next t ∧ t.status ≠ .faulted

end Sys2Proof.Machine
end

