-- ==== Sys2Proof/Certificates/Slice0/Obligations.lean ====
section
/-! DEFINITION. The statements for the provers. A hypothesis `s.mem.wf` is a clause of the invariant `State.inv`, which
`Obligations.StepKeepsInvariant` states. -/

open Sys2Proof Sys2Proof.Machine

/-! ### Encoding -/

/-- Decoding the bytes of any instruction, under any `OPC`, gives it back with every operand, and leaves the bytes after it
(30_encoding.md R57, R58, R63, R64). -/
def Obligations.DecodeOfEncodeGivesTheInstruction : Prop :=
  ∀ opc : OpcodeMap, opc.injective → ∀ (i : Instr) (rest : List Byte),
    decode opc (encodeBytes opc i ++ rest) = .instr i rest

/-- The five encoding examples of 30_encoding.md R68, the last of them for any other three bytes and anything after them;
then the words of ADDI and STRI in the table of R59, and the HALT with its unused bits set of 95_test_vectors.md E2 (that
unused bits are ignored is the spec's own choice D12, log 12). All under the reference `OPC`, the spec's own choice (D1,
log 1). -/
def Obligations.ReferenceEncodingExamples : Prop :=
  decode OpcodeMap.reference [0x02, 0, 0, 0, 0x03, 0, 0, 0] = .instr (.pushi 3) [] ∧
  decode OpcodeMap.reference [0x03, 0, 0, 0x02] = .instr (.pushr 2) [] ∧
  decode OpcodeMap.reference [0x04, 0, 0, 0x01] = .instr (.popr 1) [] ∧
  decode OpcodeMap.reference [0x10, 0, 0, 0, 0x34, 0x12, 0, 0] = .instr (.jmp 0x1234) [] ∧
  (∀ (b1 b2 b3 : Byte) (rest : List Byte),
    decode OpcodeMap.reference (0xFF :: b1 :: b2 :: b3 :: rest) = .invalidOpcode 0xFF) ∧
  decode OpcodeMap.reference [0x0B, 0, 0, 0] = .instr .addi [] ∧
  decode OpcodeMap.reference [0x0A, 0, 0, 0] = .instr .stri [] ∧
  decode OpcodeMap.reference [0x01, 0xFF, 0xFF, 0xFF] = .instr .halt []

/-- A word decodes to an instruction of row `m` exactly when its low byte is `OPC(m)`, and to none exactly when its low byte is
`OPC(m)` for no `m` (30_encoding.md R60, R61). -/
def Obligations.LowByteAloneSelectsTheInstruction : Prop :=
  ∀ opc : OpcodeMap, opc.injective → ∀ w w1 : Word,
    (∀ m, opc.value m = w.extractLsb' 0 8 ↔ ∃ i, decodeWords opc w w1 = some i ∧ i.mnemonic = m) ∧
    (decodeWords opc w w1 = none ↔ ∀ m, opc.value m ≠ w.extractLsb' 0 8)

/-- Bits 23:8 never matter, bits 31:24 matter for PUSHR and POPR only, and the dword after the word matters for PUSHI, JMP
and IF only (30_encoding.md R62, R57; that unused bits are ignored is the spec's own choice D12, log 12). -/
def Obligations.UnusedBitsDoNotTakePartInDecoding : Prop :=
  ∀ (opc : OpcodeMap) (w w' w1 w1' : Word), w.extractLsb' 0 8 = w'.extractLsb' 0 8 →
    (w.extractLsb' 24 8 = w'.extractLsb' 24 8 → decodeWords opc w w1 = decodeWords opc w' w1) ∧
    (∀ i, decodeWords opc w w1 = some i → i.mnemonic ≠ .pushr → i.mnemonic ≠ .popr →
      decodeWords opc w' w1 = some i) ∧
    (∀ i, decodeWords opc w w1 = some i → i.mnemonic ≠ .pushi → i.mnemonic ≠ .jmp → i.mnemonic ≠ .ifz →
      decodeWords opc w w1' = some i)

/-! ### The tick -/

/-- A tick of a running machine whose word at `pc` decodes runs the instruction, with `IR` holding the word and `pc` moved
past it (40_engine.md R70). -/
def Obligations.StepRunsTheDecodedInstruction : Prop :=
  ∀ (s : State) (i : Instr), s.status = .running → s.inRange s.pc →
    decodeWords s.config.opc (s.dwordAt s.pc) (s.dwordAt (s.pc + 4)) = some i →
    step s = exec i { s with ir := s.dwordAt s.pc, pc := s.pc + 4 }

/-- PUSHI, JMP and IF take as their operand the dword at `u32(offset + 4)` as memory holds it (30_encoding.md R64,
40_engine.md R71); PUSHR and POPR take `IR[31:24]` (R63). That the decoder reads the dword before the handler checks its
range is the model's reading (log 16). -/
def Obligations.OperandsComeFromTheirPlaces : Prop :=
  ∀ s : State, s.config.opc.injective → s.status = .running → s.inRange s.pc →
    (s.config.opc.pushi = (s.dwordAt s.pc).extractLsb' 0 8 →
      step s = exec (.pushi (s.dwordAt (s.pc + 4))) { s with ir := s.dwordAt s.pc, pc := s.pc + 4 }) ∧
    (s.config.opc.jmp = (s.dwordAt s.pc).extractLsb' 0 8 →
      step s = exec (.jmp (s.dwordAt (s.pc + 4))) { s with ir := s.dwordAt s.pc, pc := s.pc + 4 }) ∧
    (s.config.opc.ifz = (s.dwordAt s.pc).extractLsb' 0 8 →
      step s = exec (.ifz (s.dwordAt (s.pc + 4))) { s with ir := s.dwordAt s.pc, pc := s.pc + 4 }) ∧
    (s.config.opc.pushr = (s.dwordAt s.pc).extractLsb' 0 8 →
      step s = exec (.pushr ((s.dwordAt s.pc).extractLsb' 24 8)) { s with ir := s.dwordAt s.pc, pc := s.pc + 4 }) ∧
    (s.config.opc.popr = (s.dwordAt s.pc).extractLsb' 0 8 →
      step s = exec (.popr ((s.dwordAt s.pc).extractLsb' 24 8)) { s with ir := s.dwordAt s.pc, pc := s.pc + 4 })

/-- The faults of the tick itself, the fetch before the opcode (40_engine.md R70, 60_exceptions.md R141, R142, R145; the
order is the spec's own choice D5, log 9). -/
def Obligations.TickFaultsOnFetchThenOpcode : Prop :=
  ∀ s : State, s.status = .running →
    (¬s.inRange s.pc → TickFaults s (.outOfRangeAccess s.pc)) ∧
    (s.inRange s.pc → (∀ m, s.config.opc.value m ≠ (s.dwordAt s.pc).extractLsb' 0 8) →
      TickFaults s (.invalidOpcode ((s.dwordAt s.pc).extractLsb' 0 8) s.pc))

/-- A tick of a halted or faulted machine changes nothing and returns `Ok` (40_engine.md R73; for a faulted machine the
spec's own choice D11, log 14). -/
def Obligations.TickOfAStoppedMachineIsANoOp : Prop :=
  ∀ s : State, s.status = .halted ∨ s.status = .faulted → step s = .next s ∧ tick s = .next (s, .ok)

/-- Every tick ends in a next state, and no tick changes the parameters (40_engine.md R70, R72, R77). That a fault is a next
state and no stop of the model is the model's form of R140 (log 7). -/
def Obligations.EveryTickEndsInANextState : Prop :=
  ∀ s : State, ∃ t, step s = .next t ∧ t.config = s.config

/-! ### The invariant -/

/-- Every tick keeps the invariant. -/
def Obligations.StepKeepsInvariant : Prop :=
  ∀ s t : State, s.inv → step s = .next t → t.inv

/-- The reset machine satisfies the invariant. -/
def Obligations.ResetSatisfiesInvariant : Prop := State.reset.inv

/-- Every machine that `Construct` makes, from admitted parameters and any image, satisfies the invariant. -/
def Obligations.ConstructSatisfiesInvariant : Prop :=
  ∀ (c : Config) (src : List Byte), c.wf → (construct c src).inv

/-- The invariant holds after any number of ticks of any constructed machine. -/
def Obligations.InvariantHoldsAlongEveryRun : Prop :=
  ∀ (c : Config) (src : List Byte) (n : Nat), c.wf →
    ∃ t, Host.Core.run Sys2Proof.core n (construct c src) = .next t ∧ t.inv ∧ t.config = c

/-! ### NOP and HALT -/

/-- NOP does nothing of its own, and the tick's own fetch is all that happens (40_engine.md R78). -/
def Obligations.NopOnlyAdvancesPc : Prop :=
  ∀ s : State, exec .nop s = .next s ∧
    (s.config.opc.injective → s.status = .running → s.inRange s.pc →
      s.config.opc.nop = (s.dwordAt s.pc).extractLsb' 0 8 →
      step s = .next { s with ir := s.dwordAt s.pc, pc := s.pc + 4 })

/-- HALT sets the status, and with it `stop`, leaves `pc` past itself and all else alone, and the tick after it changes
nothing (40_engine.md R79). -/
def Obligations.HaltStopsTheMachine : Prop :=
  ∀ s : State, exec .halt s = .next { s with status := .halted } ∧
    (s.config.opc.injective → s.status = .running → s.inRange s.pc →
      s.config.opc.halt = (s.dwordAt s.pc).extractLsb' 0 8 →
      ∃ t, step s = .next t ∧ t = { s with ir := s.dwordAt s.pc, pc := s.pc + 4, status := .halted } ∧
        t.stop = true ∧ step t = .next t)

/-- Only HALT halts (40_engine.md R72, 10_state.md R31). -/
def Obligations.OnlyHaltHalts : Prop :=
  ∀ (i : Instr) (s t : State), s.status = .running → exec i s = .next t →
    (t.status = .halted ↔ i = .halt) ∧ (t.stop = true ↔ t.status = .halted)

/-! ### Stack and register transfer -/

/-- PUSHI (41_stack.md R84). The operand's dword is checked before the push; the increment of `pc` is modulo 2^32 (D7,
log 11), and `s.pc` is the address after the instruction word. -/
def Obligations.PushiPushesItsOperand : Prop :=
  EncodedAs .pushi 8 .pushi ∧ ∀ (imm : Word) (s : State),
    (¬s.inRange s.pc → Faults (.pushi imm) s (.outOfRangeAccess s.pc)) ∧
    (s.inRange s.pc → ¬s.inRange (s.sp - 4) → Faults (.pushi imm) s (.outOfRangeAccess (s.sp - 4))) ∧
    (s.inRange s.pc → s.inRange (s.sp - 4) → s.mem.wf →
      ∃ m, exec (.pushi imm) s = .next { s with
          pc := s.pc + 4, sp := s.sp - 4, flags := zeroNegativeOf s.flags imm, mem := m } ∧
        DwordStored s.mem m (s.sp - 4) imm)

/-- PUSHR (41_stack.md R85): `sp` (before the push), `bp` or `pc` for ids 0, 1, 2; the fault of ids 3 to 255 and its being
raised first are the spec's own choices (D3, D5, log 8, log 9). -/
def Obligations.PushrPushesTheNamedRegister : Prop :=
  ∀ (regid : Byte) (s : State),
    (3 ≤ regid.toNat → Faults (.pushr regid) s (.invalidRegister regid (s.pc - 4))) ∧
    (regid.toNat < 3 → ¬s.inRange (s.sp - 4) → Faults (.pushr regid) s (.outOfRangeAccess (s.sp - 4))) ∧
    (regid.toNat < 3 → s.inRange (s.sp - 4) → s.mem.wf →
      ∃ m v, v = (if regid = 0 then s.sp else if regid = 1 then s.bp else s.pc) ∧
        exec (.pushr regid) s = .next { s with
          sp := s.sp - 4, flags := zeroNegativeOf s.flags v, mem := m } ∧
        DwordStored s.mem m (s.sp - 4) v)

/-- POPR (41_stack.md R86): `POPR sp` leaves the popped value in `sp`; the other two raise `sp` by 4 modulo 2^32 (D7,
log 11). The fault of ids 3 to 255 and its being raised first are the spec's own choices (D3, D5, log 8, log 9). -/
def Obligations.PoprWritesTheNamedRegister : Prop :=
  ∀ (regid : Byte) (s : State),
    (3 ≤ regid.toNat → Faults (.popr regid) s (.invalidRegister regid (s.pc - 4))) ∧
    (regid.toNat < 3 → PopFaults (.popr regid) s) ∧
    (regid = 0 → s.inRange s.sp →
      exec (.popr regid) s = .next { s with
        sp := s.dwordAt s.sp, flags := zeroNegativeOf s.flags (s.dwordAt s.sp) }) ∧
    (regid = 1 → s.inRange s.sp →
      exec (.popr regid) s = .next { s with
        sp := s.sp + 4, bp := s.dwordAt s.sp, flags := zeroNegativeOf s.flags (s.dwordAt s.sp) }) ∧
    (regid = 2 → s.inRange s.sp →
      exec (.popr regid) s = .next { s with
        sp := s.sp + 4, pc := s.dwordAt s.sp, flags := zeroNegativeOf s.flags (s.dwordAt s.sp) })

/-- DROPI (41_stack.md R87): `sp` raised by 4 modulo 2^32 (D7, log 11), nothing else. -/
def Obligations.DropiOnlyRaisesSp : Prop :=
  ∀ s : State, PopFaults .dropi s ∧ (s.inRange s.sp → exec .dropi s = .next { s with sp := s.sp + 4 })

/-- DUPI (41_stack.md R88): the peek before the push. -/
def Obligations.DupiCopiesTheTop : Prop :=
  EncodedAs .dupi 4 (fun _ => .dupi) ∧ ∀ s : State,
    (¬s.inRange s.sp → Faults .dupi s (.outOfRangeAccess s.sp)) ∧
    (s.inRange s.sp → ¬s.inRange (s.sp - 4) → Faults .dupi s (.outOfRangeAccess (s.sp - 4))) ∧
    (s.inRange s.sp → s.inRange (s.sp - 4) → s.mem.wf →
      ∃ m, exec .dupi s = .next { s with
          sp := s.sp - 4, flags := zeroNegativeOf s.flags (s.dwordAt s.sp), mem := m } ∧
        DwordStored s.mem m (s.sp - 4) (s.dwordAt s.sp))

/-- OVERI (41_stack.md R89): the second is the dword at `u32(sp + 4)` (modulo 2^32 by D7, log 11). -/
def Obligations.OveriCopiesTheSecond : Prop :=
  ∀ s : State,
    (¬s.inRange (s.sp + 4) → Faults .overi s (.outOfRangeAccess (s.sp + 4))) ∧
    (s.inRange (s.sp + 4) → ¬s.inRange (s.sp - 4) → Faults .overi s (.outOfRangeAccess (s.sp - 4))) ∧
    (s.inRange (s.sp + 4) → s.inRange (s.sp - 4) → s.mem.wf →
      ∃ m, exec .overi s = .next { s with
          sp := s.sp - 4, flags := zeroNegativeOf s.flags (s.dwordAt (s.sp + 4)), mem := m } ∧
        DwordStored s.mem m (s.sp - 4) (s.dwordAt (s.sp + 4)))

/-- SWAPI (41_stack.md R90): both dwords change places, `sp` ends where it started, no other cell changes. -/
def Obligations.SwapiExchangesTheTopTwo : Prop :=
  ∀ s : State, TwoPopFaults .swapi s ∧
    (s.inRange s.sp → s.inRange (s.sp + 4) → s.mem.wf →
      ∃ m, exec .swapi s = .next { s with flags := zeroNegativeOf s.flags (s.dwordAt (s.sp + 4)), mem := m } ∧
        m.dword s.sp.toNat = s.dwordAt (s.sp + 4) ∧ m.dword (s.sp + 4).toNat = s.dwordAt s.sp ∧
        ∀ k : Nat, (k < s.sp.toNat ∨ s.sp.toNat + 4 ≤ k) → (k < (s.sp + 4).toNat ∨ (s.sp + 4).toNat + 4 ≤ k) →
          m.readByte k = s.mem.readByte k)

/-! ### Memory access -/

/-- FCHI (42_memory_ops.md R100): the dword at the popped address replaces the address on the stack; that push cannot
fault. -/
def Obligations.FchiFetchesTheDword : Prop :=
  ∀ s : State, PopFaults .fchi s ∧
    (s.inRange s.sp → ¬s.inRange (s.dwordAt s.sp) → Faults .fchi s (.outOfRangeAccess (s.dwordAt s.sp))) ∧
    (s.inRange s.sp → s.inRange (s.dwordAt s.sp) → s.mem.wf →
      ∃ m, exec .fchi s = .next { s with
          flags := zeroNegativeOf s.flags (s.dwordAt (s.dwordAt s.sp)), mem := m } ∧
        DwordStored s.mem m s.sp (s.dwordAt (s.dwordAt s.sp)))

/-- STRI (42_memory_ops.md R101): the address on top, the value beneath it. -/
def Obligations.StriStoresTheDword : Prop :=
  ∀ s : State, TwoPopFaults .stri s ∧
    (s.inRange s.sp → s.inRange (s.sp + 4) → ¬s.inRange (s.dwordAt s.sp) →
      Faults .stri s (.outOfRangeAccess (s.dwordAt s.sp))) ∧
    (s.inRange s.sp → s.inRange (s.sp + 4) → s.inRange (s.dwordAt s.sp) → s.mem.wf →
      ∃ m, exec .stri s = .next { s with
          sp := s.sp + 8, flags := zeroNegativeOf s.flags (s.dwordAt (s.sp + 4)), mem := m } ∧
        DwordStored s.mem m (s.dwordAt s.sp) (s.dwordAt (s.sp + 4)))

/-- `MemWrite` (20_memory.md R42): the four cells, least significant byte first, and no other. -/
def Obligations.MemWriteStoresFourCells : Prop :=
  ∀ (s : State) (a v : Word),
    (¬s.inRange a → memWrite s a v = .error (.outOfRangeAccess a)) ∧
    (s.inRange a → s.mem.wf → ∃ m, memWrite s a v = .ok { s with mem := m } ∧
      m.readByte a.toNat = v.extractLsb' 0 8 ∧ m.readByte (a.toNat + 1) = v.extractLsb' 8 8 ∧
      m.readByte (a.toNat + 2) = v.extractLsb' 16 8 ∧ m.readByte (a.toNat + 3) = v.extractLsb' 24 8 ∧
      SameOutside a s.mem m)

/-- `MemRead` (20_memory.md R41): the little-endian sum; what little-endian means is the spec's general knowledge (log 22).
An access is in range exactly when `a + 3 <= MEM_SIZE - 1` (R43). -/
def Obligations.MemReadIsLittleEndian : Prop :=
  ∀ (s : State) (a : Word), 4 ≤ s.config.memSize →
    (a.toNat + 3 ≤ s.config.memSize - 1 → ∃ v, memRead s a = .ok v ∧
      v.toNat = (s.mem.readByte a.toNat).toNat + 2 ^ 8 * (s.mem.readByte (a.toNat + 1)).toNat +
        2 ^ 16 * (s.mem.readByte (a.toNat + 2)).toNat + 2 ^ 24 * (s.mem.readByte (a.toNat + 3)).toNat) ∧
    (¬a.toNat + 3 ≤ s.config.memSize - 1 → memRead s a = .error (.outOfRangeAccess a))

/-- A dword read `k` cells above a written dword sees the written bytes low and the old cells high (20_memory.md R44, the
spec's own inference from R41 and R42). -/
def Obligations.OverlappingDwordsShareBytes : Prop :=
  ∀ (m : Memory) (a k j : Nat) (v : Word), m.wf → k < 4 → j < 4 →
    ((m.writeDword a v).dword (a + k)).extractLsb' (8 * j) 8 =
      if k + j < 4 then v.extractLsb' (8 * (k + j)) 8 else m.readByte (a + k + j)

/-- Two memories in canonical form that read alike in every cell are equal: the model's form of memory (R40) hides nothing. -/
def Obligations.CanonicalMemoriesThatReadAlikeAreEqual : Prop :=
  ∀ m m' : Memory, m.wf → m'.wf → (∀ a, m.readByte a = m'.readByte a) → m = m'

/-! ### Arithmetic engine, ADDI, SUBI and the bitwise instructions -/

/-- `add_w` at every byte width (43_arith_logic.md R105). -/
def Obligations.AddEngineResultAndFlags : Prop :=
  ∀ (w : Nat), 1 ≤ w → ∀ a b : BitVec (8 * w),
    ∃ r z n c v, addEngine a b = (r, { zero := z, negative := n, carry := c, overflow := v }) ∧
      r.toNat = (a.toNat + b.toNat) % 2 ^ (8 * w) ∧ (c = true ↔ a.toNat + b.toNat > 2 ^ (8 * w) - 1) ∧
      (z = true ↔ r = 0) ∧ (n = true ↔ r.getLsbD (8 * w - 1) = true) ∧
      (v = true ↔ a.getLsbD (8 * w - 1) = false ∧ b.getLsbD (8 * w - 1) = false ∧ r.getLsbD (8 * w - 1) = true)

/-- `sub_w` at every byte width (43_arith_logic.md R106). -/
def Obligations.SubEngineResultAndFlags : Prop :=
  ∀ (w : Nat), 1 ≤ w → ∀ a b : BitVec (8 * w),
    ∃ r z n c v, subEngine a b = (r, { zero := z, negative := n, carry := c, overflow := v }) ∧
      (r.toNat : Int) = ((a.toNat : Int) - (b.toNat : Int)) % (2 : Int) ^ (8 * w) ∧ (c = true ↔ a.toNat < b.toNat) ∧
      (z = true ↔ r = 0) ∧ (n = true ↔ r.getLsbD (8 * w - 1) = true) ∧
      (v = true ↔ a.getLsbD (8 * w - 1) = true ∧ b.getLsbD (8 * w - 1) = false ∧ r.getLsbD (8 * w - 1) = false)

/-- The laws of 43_arith_logic.md R109 (the spec's own inference from R105 and R106). -/
def Obligations.EngineLaws : Prop :=
  ∀ (w : Nat), 1 ≤ w → ∀ a b : BitVec (8 * w),
    (subEngine (addEngine a b).1 b).1 = a ∧
    ((addEngine a b).2.carry = true ↔ a.toNat + b.toNat ≥ 2 ^ (8 * w)) ∧
    ((subEngine a b).2.carry = true ↔ a.toNat < b.toNat) ∧
    addEngine a b = addEngine b a ∧
    subEngine a a = (0, { zero := true, negative := false, carry := false, overflow := false }) ∧
    ((addEngine a b).2.zero = true ∧ (addEngine a b).2.carry = true ↔ a.toNat + b.toNat = 2 ^ (8 * w))

/-- The overflow flag against true signed overflow (43_arith_logic.md R108, the spec's own table): it is the true one except
that a sum of two negatives and a positive minus a negative are never flagged. -/
def Obligations.OverflowIsOneSided : Prop :=
  ∀ (w : Nat), 1 ≤ w → ∀ a b : BitVec (8 * w),
    (addEngine a b).2.overflow = (BitVec.saddOverflow a b && !(a.msb && b.msb)) ∧
    (subEngine a b).2.overflow = (BitVec.ssubOverflow a b && !(!a.msb && b.msb))

/-- ADDI (43_arith_logic.md R112): a is the second, b the top; the result sits where a was. The pop raises `sp` modulo 2^32
(D7, log 11). -/
def Obligations.AddiAddsTheTopTwo : Prop :=
  EncodedAs .addi 4 (fun _ => .addi) ∧ ∀ s : State, TwoPopFaults .addi s ∧
    (s.inRange s.sp → s.inRange (s.sp + 4) → s.mem.wf →
      ∃ a b r m, a = s.dwordAt (s.sp + 4) ∧ b = s.dwordAt s.sp ∧ r = a + b ∧
        exec .addi s = .next { s with
          sp := s.sp + 4
          flags :=
            { zero := decide (r = 0), negative := r.getLsbD 31, carry := decide (2 ^ 32 ≤ a.toNat + b.toNat)
              overflow := !a.getLsbD 31 && !b.getLsbD 31 && r.getLsbD 31 }
          mem := m } ∧
        DwordStored s.mem m (s.sp + 4) r)

/-- SUBI (43_arith_logic.md R113): the second minus the top. The pop raises `sp` modulo 2^32 (D7, log 11). -/
def Obligations.SubiSubtractsTheTopFromTheSecond : Prop :=
  EncodedAs .subi 4 (fun _ => .subi) ∧ ∀ s : State, TwoPopFaults .subi s ∧
    (s.inRange s.sp → s.inRange (s.sp + 4) → s.mem.wf →
      ∃ a b r m, a = s.dwordAt (s.sp + 4) ∧ b = s.dwordAt s.sp ∧ r = a - b ∧
        exec .subi s = .next { s with
          sp := s.sp + 4
          flags :=
            { zero := decide (r = 0), negative := r.getLsbD 31, carry := decide (a.toNat < b.toNat)
              overflow := a.getLsbD 31 && !b.getLsbD 31 && !r.getLsbD 31 }
          mem := m } ∧
        DwordStored s.mem m (s.sp + 4) r)

/-- ANDI, ORI, XORI (43_arith_logic.md R114, R115, R116): bit `i` of the result from bit `i` of each operand, which the spec
supplies from general knowledge (log 21); carry and overflow unchanged. -/
def Obligations.BitwiseInstructionsWorkBitByBit : Prop :=
  ∀ (s : State) (i : Instr) (op : Bool → Bool → Bool),
    (i = .andi ∧ op = and) ∨ (i = .ori ∧ op = or) ∨ (i = .xori ∧ op = xor) →
    TwoPopFaults i s ∧
    (s.inRange s.sp → s.inRange (s.sp + 4) → s.mem.wf →
      ∃ r m, (∀ k < 32, r.getLsbD k = op ((s.dwordAt (s.sp + 4)).getLsbD k) ((s.dwordAt s.sp).getLsbD k)) ∧
        exec i s = .next { s with sp := s.sp + 4, flags := zeroNegativeOf s.flags r, mem := m } ∧
        DwordStored s.mem m (s.sp + 4) r)

/-! ### Control transfer -/

/-- JMP (44_control.md R125): the target is not checked here; the next fetch checks it. `s.pc` is the address after the
instruction word. -/
def Obligations.JmpSetsPc : Prop :=
  EncodedAs .jmp 8 .jmp ∧ ∀ (target : Word) (s : State),
    (¬s.inRange s.pc → Faults (.jmp target) s (.outOfRangeAccess s.pc)) ∧
    (s.inRange s.pc → exec (.jmp target) s = .next { s with pc := target }) ∧
    (s.status = .running → ¬s.inRange target → TickFaults { s with pc := target } (.outOfRangeAccess target))

/-- IF (44_control.md R126): the pop faults first (the spec's own choice D5, log 9); the branch is taken exactly when the
whole popped dword is 0. -/
def Obligations.IfBranchesOnZero : Prop :=
  ∀ (target : Word) (s : State), PopFaults (.ifz target) s ∧
    (s.inRange s.sp → ¬s.inRange s.pc → Faults (.ifz target) s (.outOfRangeAccess s.pc)) ∧
    (s.inRange s.sp → s.inRange s.pc →
      exec (.ifz target) s = .next { s with
        sp := s.sp + 4, pc := if s.dwordAt s.sp = 0 then target else s.pc + 4 })

/-- CALL (44_control.md R127): the return address takes the target's place, `sp` is unchanged. -/
def Obligations.CallReplacesTheTargetByTheReturnAddress : Prop :=
  ∀ s : State, PopFaults .call s ∧
    (s.inRange s.sp → s.mem.wf →
      ∃ m, exec .call s = .next { s with pc := s.dwordAt s.sp, mem := m } ∧ DwordStored s.mem m s.sp s.pc)

/-- RET (44_control.md R128): no guard, whatever dword is on top goes to `pc`; `sp` is raised modulo 2^32 (D7, log 11). -/
def Obligations.RetPopsIntoPc : Prop :=
  ∀ s : State, PopFaults .ret s ∧
    (s.inRange s.sp → exec .ret s = .next { s with sp := s.sp + 4, pc := s.dwordAt s.sp })

/-- A RET run where CALL has left the stack returns to the address after the CALL with the target popped (44_control.md
R127, R128, R130). -/
def Obligations.RetUndoesCall : Prop :=
  ∀ (s : State) (p : Word), s.inRange s.sp → s.mem.wf →
    ∃ t u, exec .call s = .next t ∧ t.sp = s.sp ∧ t.pc = s.dwordAt s.sp ∧
      exec .ret { t with pc := p } = .next u ∧ u.pc = s.pc ∧ u.sp = s.sp + 4 ∧ u.bp = s.bp ∧ u.flags = s.flags

/-- A jump to itself changes nothing but `IR` on its first tick and never stops (44_control.md R125, 40_engine.md R76). -/
def Obligations.JumpToItselfNeverStops : Prop :=
  ∀ (s : State) (n : Nat), s.status = .running → s.inRange s.pc → s.inRange (s.pc + 4) →
    decodeWords s.config.opc (s.dwordAt s.pc) (s.dwordAt (s.pc + 4)) = some (.jmp s.pc) →
    SafeFor n s ∧ run (n + 1) s = .notYet { s with ir := s.dwordAt s.pc }

/-- The instruction after a store that rewrites it executes the rewritten bytes (20_memory.md R54). -/
def Obligations.StoreIsSeenByTheNextFetch : Prop :=
  ∀ s : State, s.mem.wf → s.status = .running → s.inRange s.pc → s.inRange (s.pc + 4) → s.inRange s.sp →
    s.inRange (s.sp + 4) → decodeWords s.config.opc (s.dwordAt s.pc) (s.dwordAt (s.pc + 4)) = some .stri →
    s.dwordAt s.sp = s.pc + 4 →
    ∃ t, step s = .next t ∧ t.pc = s.pc + 4 ∧ t.dwordAt t.pc = s.dwordAt (s.sp + 4) ∧
      ∀ j, decodeWords s.config.opc (s.dwordAt (s.sp + 4)) (t.dwordAt (t.pc + 4)) = some j →
        step t = exec j { t with ir := s.dwordAt (s.sp + 4), pc := t.pc + 4 }

/-! ### Flags and registers over all instructions -/

/-- Which flags each instruction can write (10_state.md R30, R26): carry and overflow only ADDI and SUBI; none NOP, HALT,
DROPI, JMP, IF, CALL, RET. After a fault the flags are open (R140). -/
def Obligations.EachInstructionWritesOnlyItsFlags : Prop :=
  ∀ (i : Instr) (s t : State), exec i s = .next t → t.status ≠ .faulted →
    (i ≠ .addi → i ≠ .subi → t.flags.carry = s.flags.carry ∧ t.flags.overflow = s.flags.overflow) ∧
    (i.mnemonic ∈ [Mnemonic.nop, .halt, .dropi, .jmp, .ifz, .call, .ret] → t.flags = s.flags)

/-- No instruction reads a flag: two machines that differ in their flags only take the same course (10_state.md R30, the
spec's own inference). -/
def Obligations.NoInstructionReadsAFlag : Prop :=
  ∀ (s : State) (f : Flags), ∃ t u, step s = .next t ∧ step { s with flags := f } = .next u ∧
    u.status = t.status ∧ u.faultRecord = t.faultRecord ∧ (t.status ≠ .faulted → u = { t with flags := u.flags })

/-- Nothing observes `IR` before the next fetch overwrites it (10_state.md R32; its reset value is the spec's own choice D17,
log 5). -/
def Obligations.NoTickReadsTheOldInstructionWord : Prop :=
  ∀ (s : State) (w : Word), s.status = .running → ∃ t u, step s = .next t ∧ step { s with ir := w } = .next u ∧
    u.status = t.status ∧ u.faultRecord = t.faultRecord ∧ (t.status ≠ .faulted → u = t)

/-- `bp` is written by POPR with id 1 only (10_state.md R23, R25). -/
def Obligations.OnlyPoprWritesBp : Prop :=
  ∀ (i : Instr) (s t : State), exec i s = .next t → t.status ≠ .faulted → i ≠ .popr 1 → t.bp = s.bp

/-- `pc` after an instruction that is no control transfer is the address after its bytes (10_state.md R24, R25): PUSHI has an
operand to pass, the others have none. -/
def Obligations.OnlyControlTransfersSetPc : Prop :=
  ∀ (i : Instr) (s t : State), exec i s = .next t → t.status ≠ .faulted →
    i.mnemonic ∉ [Mnemonic.jmp, .ifz, .call, .ret] → i ≠ .popr 2 →
    t.pc = if i.mnemonic = .pushi then s.pc + 4 else s.pc

/-- The status word and the masked read (10_state.md R28, R29): bit 0 overflow, 1 zero, 2 carry, 3 negative, in the word and
in the mask. The bit order is the spec's own choice D13, log 13. -/
def Obligations.StatusWordAndSelect : Prop :=
  ∀ (f : Flags) (mask : BitVec 4), IsStatusWord f (statusWord f) ∧ MaskSelects f mask (selectFlags f mask)

/-! ### Faults -/

/-- What the tick of a running machine returns: `Ok` when it does not fault (40_engine.md R70); when it does, the fault it
records (60_exceptions.md R140, R147), exactly: the address is one whose dword is not in memory (R142), the offset is the
`pc` of the tick, the opcode and register id are those of the fetched word (R141, R143). `InvalidRegister` and the base
address are the spec's own choices D3, D6 (log 8, log 10). -/
def Obligations.FaultRecordsAreExact : Prop :=
  ∀ s t : State, s.status = .running → step s = .next t →
    (t.status ≠ .faulted → tick s = .next (t, .ok)) ∧
    (t.status = .faulted →
      ∃ f, t.faultRecord = some f ∧ tick s = .next (t, .fault f) ∧
        match f with
        | .outOfRangeAccess a => ¬s.inRange a
        | .invalidOpcode op offset =>
          offset = s.pc ∧ op = (s.dwordAt s.pc).extractLsb' 0 8 ∧ ∀ m, s.config.opc.value m ≠ op
        | .invalidRegister regid offset =>
          offset = s.pc ∧ regid = (s.dwordAt s.pc).extractLsb' 24 8 ∧ 3 ≤ regid.toNat)

/-- An instruction whose register id names a register never raises `InvalidRegister`; the others always do
(60_exceptions.md R143, the spec's own choice D3, log 8). -/
def Obligations.InvalidRegisterExactlyForIllFormed : Prop :=
  ∀ (i : Instr) (s : State), s.faultRecord = none →
    (i.wellFormed = false → ∃ regid, Faults i s (.invalidRegister regid (s.pc - 4))) ∧
    (i.wellFormed = true → ∃ t, exec i s = .next t ∧
      ∀ regid offset, t.faultRecord ≠ some (.invalidRegister regid offset))

/-! ### Reset, image and run -/

/-- The values `Construct` leaves in the registers and the status (10_state.md R36, 70_reset_and_hazards.md R170; the flags
are the parameter `FLAGS0` and `IR` is 0 by the spec's own choices D2, D17, log 2, log 5). -/
def Obligations.ConstructSetsResetValues : Prop :=
  ∀ (c : Config) (src : List Byte), c.wf →
    (construct c src).pc = 0 ∧ (construct c src).bp = 0 ∧ (construct c src).sp.toNat = c.memSize - 4 ∧
    (construct c src).flags = c.flags0 ∧ (construct c src).ir = 0 ∧ (construct c src).status = .running ∧
    (construct c src).stop = false ∧ (construct c src).faultRecord = none ∧ (construct c src).config = c

/-- The image load (20_memory.md R47, R48): byte after byte from address 0, 0 past the end of a short image, the excess of a
long one never read, no effect but on memory. -/
def Obligations.ImageIsLoadedVerbatim : Prop :=
  ∀ (c : Config) (src : List Byte), c.wf →
    (∀ a < c.memSize, (construct c src).mem.readByte a = src.getD a 0) ∧
    construct c src = construct c (src.take c.memSize) ∧
    construct c src = { State.zeroed c with mem := (construct c src).mem }

/-- `Run` under a budget is the host's iteration of the step, followed by the exit read (40_engine.md R74, R76). -/
def Obligations.RunIsIteratedTick : Prop :=
  ∀ (n : Nat) (s : State), ∃ t, Host.Core.run Sys2Proof.core n s = .next t ∧ run n s = runEnd t

/-- The exit value is the dword at the final `sp`, or the fault of reading it (40_engine.md R75; the fault is the spec's own
choice D16, log 15); `Run` on a stopped machine answers the same again (R74). -/
def Obligations.RunOfAStoppedMachine : Prop :=
  ∀ (n : Nat) (s : State),
    (s.status = .halted → s.inRange s.sp → run n s = .exit (s.dwordAt s.sp) s) ∧
    (s.status = .halted → ¬s.inRange s.sp →
      ∃ t, run n s = .fault (some (.outOfRangeAccess s.sp)) t ∧ t.status = .faulted ∧
        t.faultRecord = some (.outOfRangeAccess s.sp)) ∧
    (s.status = .faulted → run n s = .fault s.faultRecord s)

/-- A budget that suffices stays sufficient with the same result (40_engine.md R74, R76). -/
def Obligations.LargerBudgetKeepsTheResult : Prop :=
  ∀ (n k : Nat) (s : State), (∀ t, run n s ≠ .notYet t) → run (n + k) s = run n s

/-- `Inspect` answers from the state (10_state.md R33): registers by name and by id, a memory dword under the range check of
`MemRead`, the flags a mask selects (R28), the run status, the fault record. That a bad address is answered to the host as
the fault kind is the spec's own choice D10, the bit order of mask and status word D13 (log 13). That a bad register id is
answered as no register, and that `Inspect` also offers the status word, `stop` and `IR`, is the model's choice (log 23). -/
def Obligations.InspectAnswersFromTheState : Prop :=
  ∀ (s : State) (a : Word) (regid : Byte) (mask : BitVec 4),
    inspect s (.register .sp) = .word s.sp ∧ inspect s (.register .bp) = .word s.bp ∧
    inspect s (.register .pc) = .word s.pc ∧
    inspect s (.registerId 0) = .word s.sp ∧ inspect s (.registerId 1) = .word s.bp ∧
    inspect s (.registerId 2) = .word s.pc ∧
    (3 ≤ regid.toNat → inspect s (.registerId regid) = .noRegister) ∧
    (s.inRange a → inspect s (.memory a) = .word (s.dwordAt a)) ∧
    (¬s.inRange a → inspect s (.memory a) = .error (.outOfRangeAccess a)) ∧
    (∃ fs, inspect s (.flags mask) = .flags fs ∧ MaskSelects s.flags mask fs) ∧
    (∃ w, inspect s .statusWord = .bits w ∧ IsStatusWord s.flags w) ∧
    (∃ b, inspect s .stop = .truth b ∧ (b = true ↔ s.status = .halted)) ∧
    inspect s .instructionWord = .word s.ir ∧
    inspect s .runStatus = .status s.status ∧ inspect s .faultRecord = .record s.faultRecord

/-- The numeric codes of the three fault kinds (60_exceptions.md R141, R142, R143; the numbers are the spec's own choice D18,
log 24). -/
def Obligations.FaultCodesAreOneTwoThree : Prop :=
  ∀ (opcode regid : Byte) (offset address : Word),
    faultCode (.invalidOpcode opcode offset) = 1 ∧ faultCode (.outOfRangeAccess address) = 2 ∧
    faultCode (.invalidRegister regid offset) = 3
end

