-- ==== Sys2Proof/Laws/Decode.lean ====
section
/-! SUPPORT. What the row lookup of the decoder can answer. -/

namespace Sys2Proof

theorem Mnemonic.mem_all (m : Mnemonic) : m ∈ Mnemonic.all := by cases m <;> decide

/-- No two mnemonics share an opcode value (30_encoding.md R59). -/
theorem OpcodeMap.value_inj {opc : OpcodeMap} (h : opc.injective) {m m' : Mnemonic} (he : opc.value m = opc.value m') :
    m = m' := List.inj_on_of_nodup_map h m.mem_all m'.mem_all he

/-- An opcode byte selects row `m` exactly when it is `OPC(m)` (R60). -/
theorem mnemonicOf_eq_some {opc : OpcodeMap} (h : opc.injective) {m : Mnemonic} {b : Byte} :
    mnemonicOf opc b = some m ↔ opc.value m = b := by
  constructor
  · intro hf
    simpa using List.find?_some hf
  · rintro rfl
    unfold mnemonicOf
    cases hf : List.find? (fun m' => opc.value m' == opc.value m) Mnemonic.all with
    | none => exact absurd (List.find?_eq_none.1 hf m m.mem_all) (by simp)
    | some m' =>
      have he : opc.value m' = opc.value m := by simpa using List.find?_some hf
      rw [OpcodeMap.value_inj h he]

/-- An opcode byte selects no row exactly when it is `OPC(m)` for no `m` (R61). -/
theorem mnemonicOf_eq_none {opc : OpcodeMap} {b : Byte} : mnemonicOf opc b = none ↔ ∀ m, opc.value m ≠ b := by
  unfold mnemonicOf
  rw [List.find?_eq_none]
  exact ⟨fun h m => by simpa using h m m.mem_all, fun h m _ => by simpa using h m⟩

/-- The instruction of a row belongs to that row. -/
@[simp] theorem instrOf_mnemonic (m : Mnemonic) (w0 w1 : Word) : (instrOf m w0 w1).mnemonic = m := by cases m <;> rfl

/-- A word whose low byte is `OPC(m)` decodes to the instruction of row `m` (R60). -/
theorem decodeWords_of_opcode {opc : OpcodeMap} (h : opc.injective) {m : Mnemonic} {w0 : Word} (w1 : Word)
    (hm : opc.value m = opcodeField w0) : decodeWords opc w0 w1 = some (instrOf m w0 w1) := by
  rw [decodeWords, (mnemonicOf_eq_some h).2 hm]; rfl

end Sys2Proof
end

