-- ==== Sys2Proof/Laws/State.lean ====
section
/-! SUPPORT. One lemma per field per update, so that no proof unfolds a record update. -/

namespace Sys2Proof.Machine

variable (s : State)

section setPc
variable (v : Word)
@[simp] theorem State.setPc_config : (s.setPc v).config = s.config := rfl
@[simp] theorem State.setPc_pc : (s.setPc v).pc = v := rfl
@[simp] theorem State.setPc_sp : (s.setPc v).sp = s.sp := rfl
@[simp] theorem State.setPc_bp : (s.setPc v).bp = s.bp := rfl
@[simp] theorem State.setPc_flags : (s.setPc v).flags = s.flags := rfl
@[simp] theorem State.setPc_ir : (s.setPc v).ir = s.ir := rfl
@[simp] theorem State.setPc_status : (s.setPc v).status = s.status := rfl
@[simp] theorem State.setPc_faultRecord : (s.setPc v).faultRecord = s.faultRecord := rfl
@[simp] theorem State.setPc_mem : (s.setPc v).mem = s.mem := rfl
@[simp] theorem State.setPc_inRange (a : Word) : (s.setPc v).inRange a ↔ s.inRange a := Iff.rfl
@[simp] theorem State.setPc_setPc (v' : Word) : (s.setPc v).setPc v' = s.setPc v' := rfl
@[simp] theorem State.setPc_dwordAt (a : Word) : (s.setPc v).dwordAt a = s.dwordAt a := rfl
end setPc

section setSp
variable (v : Word)
@[simp] theorem State.setSp_config : (s.setSp v).config = s.config := rfl
@[simp] theorem State.setSp_pc : (s.setSp v).pc = s.pc := rfl
@[simp] theorem State.setSp_sp : (s.setSp v).sp = v := rfl
@[simp] theorem State.setSp_bp : (s.setSp v).bp = s.bp := rfl
@[simp] theorem State.setSp_flags : (s.setSp v).flags = s.flags := rfl
@[simp] theorem State.setSp_ir : (s.setSp v).ir = s.ir := rfl
@[simp] theorem State.setSp_status : (s.setSp v).status = s.status := rfl
@[simp] theorem State.setSp_faultRecord : (s.setSp v).faultRecord = s.faultRecord := rfl
@[simp] theorem State.setSp_mem : (s.setSp v).mem = s.mem := rfl
@[simp] theorem State.setSp_inRange (a : Word) : (s.setSp v).inRange a ↔ s.inRange a := Iff.rfl
@[simp] theorem State.setSp_setSp (v' : Word) : (s.setSp v).setSp v' = s.setSp v' := rfl
@[simp] theorem State.setSp_dwordAt (a : Word) : (s.setSp v).dwordAt a = s.dwordAt a := rfl
end setSp

section setBp
variable (v : Word)
@[simp] theorem State.setBp_config : (s.setBp v).config = s.config := rfl
@[simp] theorem State.setBp_pc : (s.setBp v).pc = s.pc := rfl
@[simp] theorem State.setBp_sp : (s.setBp v).sp = s.sp := rfl
@[simp] theorem State.setBp_bp : (s.setBp v).bp = v := rfl
@[simp] theorem State.setBp_flags : (s.setBp v).flags = s.flags := rfl
@[simp] theorem State.setBp_ir : (s.setBp v).ir = s.ir := rfl
@[simp] theorem State.setBp_status : (s.setBp v).status = s.status := rfl
@[simp] theorem State.setBp_faultRecord : (s.setBp v).faultRecord = s.faultRecord := rfl
@[simp] theorem State.setBp_mem : (s.setBp v).mem = s.mem := rfl
@[simp] theorem State.setBp_inRange (a : Word) : (s.setBp v).inRange a ↔ s.inRange a := Iff.rfl
@[simp] theorem State.setBp_setBp (v' : Word) : (s.setBp v).setBp v' = s.setBp v' := rfl
@[simp] theorem State.setBp_dwordAt (a : Word) : (s.setBp v).dwordAt a = s.dwordAt a := rfl
end setBp

section setIr
variable (w : Word)
@[simp] theorem State.setIr_config : (s.setIr w).config = s.config := rfl
@[simp] theorem State.setIr_pc : (s.setIr w).pc = s.pc := rfl
@[simp] theorem State.setIr_sp : (s.setIr w).sp = s.sp := rfl
@[simp] theorem State.setIr_bp : (s.setIr w).bp = s.bp := rfl
@[simp] theorem State.setIr_flags : (s.setIr w).flags = s.flags := rfl
@[simp] theorem State.setIr_ir : (s.setIr w).ir = w := rfl
@[simp] theorem State.setIr_status : (s.setIr w).status = s.status := rfl
@[simp] theorem State.setIr_faultRecord : (s.setIr w).faultRecord = s.faultRecord := rfl
@[simp] theorem State.setIr_mem : (s.setIr w).mem = s.mem := rfl
@[simp] theorem State.setIr_inRange (a : Word) : (s.setIr w).inRange a ↔ s.inRange a := Iff.rfl
@[simp] theorem State.setIr_setIr (w' : Word) : (s.setIr w).setIr w' = s.setIr w' := rfl
@[simp] theorem State.setIr_dwordAt (a : Word) : (s.setIr w).dwordAt a = s.dwordAt a := rfl
end setIr

section setFlags
variable (f : Flags)
@[simp] theorem State.setFlags_config : (s.setFlags f).config = s.config := rfl
@[simp] theorem State.setFlags_pc : (s.setFlags f).pc = s.pc := rfl
@[simp] theorem State.setFlags_sp : (s.setFlags f).sp = s.sp := rfl
@[simp] theorem State.setFlags_bp : (s.setFlags f).bp = s.bp := rfl
@[simp] theorem State.setFlags_flags : (s.setFlags f).flags = f := rfl
@[simp] theorem State.setFlags_ir : (s.setFlags f).ir = s.ir := rfl
@[simp] theorem State.setFlags_status : (s.setFlags f).status = s.status := rfl
@[simp] theorem State.setFlags_faultRecord : (s.setFlags f).faultRecord = s.faultRecord := rfl
@[simp] theorem State.setFlags_mem : (s.setFlags f).mem = s.mem := rfl
@[simp] theorem State.setFlags_inRange (a : Word) : (s.setFlags f).inRange a ↔ s.inRange a := Iff.rfl
@[simp] theorem State.setFlags_setFlags (f' : Flags) : (s.setFlags f).setFlags f' = s.setFlags f' := rfl
@[simp] theorem State.setFlags_dwordAt (a : Word) : (s.setFlags f).dwordAt a = s.dwordAt a := rfl
end setFlags

section setStatus
variable (r : RunStatus)
@[simp] theorem State.setStatus_config : (s.setStatus r).config = s.config := rfl
@[simp] theorem State.setStatus_pc : (s.setStatus r).pc = s.pc := rfl
@[simp] theorem State.setStatus_sp : (s.setStatus r).sp = s.sp := rfl
@[simp] theorem State.setStatus_bp : (s.setStatus r).bp = s.bp := rfl
@[simp] theorem State.setStatus_flags : (s.setStatus r).flags = s.flags := rfl
@[simp] theorem State.setStatus_ir : (s.setStatus r).ir = s.ir := rfl
@[simp] theorem State.setStatus_status : (s.setStatus r).status = r := rfl
@[simp] theorem State.setStatus_faultRecord : (s.setStatus r).faultRecord = s.faultRecord := rfl
@[simp] theorem State.setStatus_mem : (s.setStatus r).mem = s.mem := rfl
@[simp] theorem State.setStatus_inRange (a : Word) : (s.setStatus r).inRange a ↔ s.inRange a := Iff.rfl
@[simp] theorem State.setStatus_setStatus (r' : RunStatus) : (s.setStatus r).setStatus r' = s.setStatus r' := rfl
@[simp] theorem State.setStatus_dwordAt (a : Word) : (s.setStatus r).dwordAt a = s.dwordAt a := rfl
end setStatus

section setMem
variable (m : Memory)
@[simp] theorem State.setMem_config : (s.setMem m).config = s.config := rfl
@[simp] theorem State.setMem_pc : (s.setMem m).pc = s.pc := rfl
@[simp] theorem State.setMem_sp : (s.setMem m).sp = s.sp := rfl
@[simp] theorem State.setMem_bp : (s.setMem m).bp = s.bp := rfl
@[simp] theorem State.setMem_flags : (s.setMem m).flags = s.flags := rfl
@[simp] theorem State.setMem_ir : (s.setMem m).ir = s.ir := rfl
@[simp] theorem State.setMem_status : (s.setMem m).status = s.status := rfl
@[simp] theorem State.setMem_faultRecord : (s.setMem m).faultRecord = s.faultRecord := rfl
@[simp] theorem State.setMem_mem : (s.setMem m).mem = m := rfl
@[simp] theorem State.setMem_inRange (a : Word) : (s.setMem m).inRange a ↔ s.inRange a := Iff.rfl
@[simp] theorem State.setMem_setMem (m' : Memory) : (s.setMem m).setMem m' = s.setMem m' := rfl
@[simp] theorem State.setMem_dwordAt (a : Word) : (s.setMem m).dwordAt a = m.dword a.toNat := rfl
end setMem

section fault
variable (f : Fault)
@[simp] theorem takeFault_config : (takeFault s f).config = s.config := rfl
@[simp] theorem takeFault_status : (takeFault s f).status = .faulted := rfl
@[simp] theorem takeFault_faultRecord : (takeFault s f).faultRecord = some f := rfl
end fault

section zeroed
variable (c : Config)
@[simp] theorem State.zeroed_config : (State.zeroed c).config = c := rfl
@[simp] theorem State.zeroed_status : (State.zeroed c).status = .running := rfl
@[simp] theorem State.zeroed_faultRecord : (State.zeroed c).faultRecord = none := rfl
@[simp] theorem State.zeroed_mem : (State.zeroed c).mem = [] := rfl
@[simp] theorem construct_config (src : List Byte) : (construct c src).config = c := rfl
@[simp] theorem construct_status (src : List Byte) : (construct c src).status = .running := rfl
@[simp] theorem construct_faultRecord (src : List Byte) : (construct c src).faultRecord = none := rfl
end zeroed

section setZN
variable (v : Word)
@[simp] theorem setZN_config : (setZN s v).config = s.config := rfl
@[simp] theorem setZN_pc : (setZN s v).pc = s.pc := rfl
@[simp] theorem setZN_sp : (setZN s v).sp = s.sp := rfl
@[simp] theorem setZN_bp : (setZN s v).bp = s.bp := rfl
@[simp] theorem setZN_flags : (setZN s v).flags = flagsZN s.flags v := rfl
@[simp] theorem setZN_ir : (setZN s v).ir = s.ir := rfl
@[simp] theorem setZN_status : (setZN s v).status = s.status := rfl
@[simp] theorem setZN_faultRecord : (setZN s v).faultRecord = s.faultRecord := rfl
@[simp] theorem setZN_mem : (setZN s v).mem = s.mem := rfl
@[simp] theorem setZN_dwordAt (a : Word) : (setZN s v).dwordAt a = s.dwordAt a := rfl
end setZN

section flagsZN
variable (f : Flags) (v : Word)
@[simp] theorem flagsZN_zero : (flagsZN f v).zero = (v == 0) := rfl
@[simp] theorem flagsZN_negative : (flagsZN f v).negative = v.msb := rfl
@[simp] theorem flagsZN_carry : (flagsZN f v).carry = f.carry := rfl
@[simp] theorem flagsZN_overflow : (flagsZN f v).overflow = f.overflow := rfl
end flagsZN

end Sys2Proof.Machine
end

