-- ==== Sys2Proof/Laws/Memory.lean ====
section
/-! SUPPORT. The laws of cells and dwords: what a read gives after a write, and that every operation on memory keeps its
canonical form and the bound on its addresses. -/

namespace Sys2Proof.Machine

/-- The canonical form, spelled out. -/
theorem Memory.wf_iff {m : Memory} : m.wf ↔ m.Pairwise (fun c d => c.1 < d.1) ∧ ∀ c ∈ m, c.2 ≠ 0 := decide_eq_true_iff

/-- The bound on listed addresses, spelled out. -/
theorem Memory.below_iff {m : Memory} {n : Nat} : m.below n ↔ ∀ c ∈ m, c.1 < n := decide_eq_true_iff

@[simp] theorem Memory.wf_nil : Memory.wf [] := rfl

@[simp] theorem Memory.below_nil (n : Nat) : Memory.below [] n := Memory.below_iff.2 fun _ h => nomatch h

@[simp] theorem Memory.readByte_nil (a : Nat) : Memory.readByte [] a = 0 := rfl

/-- A cell below every listed address reads as an unlisted one. -/
theorem Memory.readByte_eq_zero_of_lt {m : Memory} {a : Nat} (h : ∀ c ∈ m, a < c.1) : m.readByte a = 0 := by
  induction m with
  | nil => rfl
  | cons c rest ih =>
    have hc : a < c.1 := h c List.mem_cons_self
    simp only [Memory.readByte, if_neg (Nat.ne_of_lt hc)]
    exact ih fun d hd => h d (List.mem_cons_of_mem c hd)

/-- A cell at or past the bound reads 0. -/
theorem Memory.readByte_eq_zero_of_below {m : Memory} {n a : Nat} (h : m.below n) (ha : n ≤ a) : m.readByte a = 0 := by
  replace h := Memory.below_iff.1 h
  induction m with
  | nil => rfl
  | cons c rest ih =>
    have hc : c.1 < n := h c List.mem_cons_self
    have hne : a ≠ c.1 := fun e => absurd hc (Nat.not_lt.2 (e ▸ ha))
    simp only [Memory.readByte, if_neg hne]
    exact ih fun d hd => h d (List.mem_cons_of_mem c hd)

/-- A write leaves every other cell alone. -/
theorem Memory.readByte_writeByte_ne (m : Memory) {a k : Nat} (b : Byte) (h : k ≠ a) :
    (m.writeByte a b).readByte k = m.readByte k := by
  induction m with
  | nil => simp only [Memory.writeByte]; split <;> simp [Memory.readByte, h]
  | cons c rest ih =>
    simp only [Memory.writeByte]
    split_ifs with h1 h2 h3 h4 <;> simp_all [Memory.readByte]

/-- A read after a write to the same cell gives the value written. -/
theorem Memory.readByte_writeByte_self {m : Memory} (hm : m.wf) (a : Nat) (b : Byte) :
    (m.writeByte a b).readByte a = b := by
  replace hm := Memory.wf_iff.1 hm
  induction m with
  | nil => simp only [Memory.writeByte]; split <;> simp_all [Memory.readByte]
  | cons c rest ih =>
    obtain ⟨hs, hz⟩ := hm
    rw [List.pairwise_cons] at hs
    have hrest := ih ⟨hs.2, fun d hd => hz d (List.mem_cons_of_mem c hd)⟩
    simp only [Memory.writeByte]
    split_ifs with h1 h2 h3 h4
    · rw [h2]
      refine Memory.readByte_eq_zero_of_lt fun d hd => ?_
      rcases List.mem_cons.1 hd with rfl | hd
      · exact h1
      · exact h1.trans (hs.1 d hd)
    · simp [Memory.readByte]
    · rw [h4, h3]; exact Memory.readByte_eq_zero_of_lt hs.1
    · simp [Memory.readByte]
    · simpa [Memory.readByte, h3] using hrest

/-- The cells a write can list: those listed before, and the written one if it does not hold 0. -/
theorem Memory.mem_writeByte {m : Memory} {a : Nat} {b : Byte} {c : Host.Cell} (h : c ∈ m.writeByte a b) :
    c ∈ m ∨ (c = (a, b) ∧ b ≠ 0) := by
  induction m with
  | nil =>
    simp only [Memory.writeByte] at h
    split at h <;> simp_all
  | cons d rest ih =>
    simp only [Memory.writeByte] at h
    split_ifs at h with h1 h2 h3 h4 <;> simp only [List.mem_cons] at h ⊢ <;> tauto

/-- A cell write keeps the canonical form. -/
theorem Memory.wf_writeByte {m : Memory} (hm : m.wf) (a : Nat) (b : Byte) : (m.writeByte a b).wf := by
  replace hm := Memory.wf_iff.1 hm
  refine Memory.wf_iff.2 ⟨?_, fun c hc => ?_⟩
  · obtain ⟨hs, -⟩ := hm
    induction m with
    | nil => simp only [Memory.writeByte]; split <;> simp
    | cons d rest ih =>
      have hd := List.pairwise_cons.1 hs
      simp only [Memory.writeByte]
      split_ifs with h1 h2 h3 h4
      · exact hs
      · refine List.pairwise_cons.2 ⟨fun c hc => ?_, hs⟩
        rcases List.mem_cons.1 hc with rfl | hc
        · exact h1
        · exact h1.trans (hd.1 c hc)
      · exact hd.2
      · exact List.pairwise_cons.2 ⟨fun c hc => by simpa [h3] using hd.1 c hc, hd.2⟩
      · refine List.pairwise_cons.2 ⟨fun c hc => ?_, ih hd.2⟩
        rcases Memory.mem_writeByte hc with hc | ⟨rfl, -⟩
        · exact hd.1 c hc
        · exact lt_of_le_of_ne (Nat.le_of_not_lt h1) (Ne.symm h3)
  · rcases Memory.mem_writeByte hc with hc | ⟨rfl, hb⟩
    · exact hm.2 c hc
    · exact hb

/-- A write to an existing cell lists only existing cells. -/
theorem Memory.below_writeByte {m : Memory} {n a : Nat} (hm : m.below n) (ha : a < n) (b : Byte) :
    (m.writeByte a b).below n := Memory.below_iff.2 fun c hc => by
  rcases Memory.mem_writeByte hc with hc | ⟨rfl, -⟩
  · exact Memory.below_iff.1 hm c hc
  · exact ha

/-- The four cell writes of a dword keep the canonical form. -/
theorem Memory.wf_writeDword {m : Memory} (hm : m.wf) (a : Nat) (v : Word) : (m.writeDword a v).wf :=
  Memory.wf_writeByte (Memory.wf_writeByte (Memory.wf_writeByte (Memory.wf_writeByte hm _ _) _ _) _ _) _ _

/-- A dword write whose four cells exist lists only existing cells. -/
theorem Memory.below_writeDword {m : Memory} {n a : Nat} (hm : m.below n) (ha : a + 3 < n) (v : Word) :
    (m.writeDword a v).below n :=
  Memory.below_writeByte (Memory.below_writeByte (Memory.below_writeByte
    (Memory.below_writeByte hm (by omega) _) (by omega) _) (by omega) _) (by omega) _

/-- "No other cell changes" (R42). -/
theorem Memory.readByte_writeDword_outside (m : Memory) {a k : Nat} (v : Word) (h : k < a ∨ a + 4 ≤ k) :
    (m.writeDword a v).readByte k = m.readByte k := by
  simp only [Memory.writeDword]
  rw [Memory.readByte_writeByte_ne _ _ (by omega), Memory.readByte_writeByte_ne _ _ (by omega),
    Memory.readByte_writeByte_ne _ _ (by omega), Memory.readByte_writeByte_ne _ _ (by omega)]

/-- Cell `a + j` of a written dword holds its byte `j` (R42). -/
theorem Memory.readByte_writeDword {m : Memory} (hm : m.wf) (a : Nat) (v : Word) {j : Nat} (hj : j < 4) :
    (m.writeDword a v).readByte (a + j) = dwordByte v j := by
  have h0 := Memory.wf_writeByte hm a (dwordByte v 0)
  have h1 := Memory.wf_writeByte h0 (a + 1) (dwordByte v 1)
  have h2 := Memory.wf_writeByte h1 (a + 2) (dwordByte v 2)
  simp only [Memory.writeDword]
  obtain rfl | rfl | rfl | rfl : j = 0 ∨ j = 1 ∨ j = 2 ∨ j = 3 := by omega
  · rw [Memory.readByte_writeByte_ne _ _ (by omega), Memory.readByte_writeByte_ne _ _ (by omega),
      Memory.readByte_writeByte_ne _ _ (by omega)]
    exact Memory.readByte_writeByte_self hm _ _
  · rw [Memory.readByte_writeByte_ne _ _ (by omega), Memory.readByte_writeByte_ne _ _ (by omega)]
    exact Memory.readByte_writeByte_self h0 _ _
  · rw [Memory.readByte_writeByte_ne _ _ (by omega)]
    exact Memory.readByte_writeByte_self h1 _ _
  · exact Memory.readByte_writeByte_self h2 _ _

/-- The bytes of a dword put together again are the dword (R41, R42). -/
@[simp] theorem dwordOfBytes_dwordByte (v : Word) :
    dwordOfBytes (dwordByte v 0) (dwordByte v 1) (dwordByte v 2) (dwordByte v 3) = v := by
  simp only [dwordOfBytes, dwordByte]
  ext i hi
  simp only [BitVec.getElem_append, BitVec.getElem_extractLsb']
  have e : v[i] = v.getLsbD i := (BitVec.getLsbD_eq_getElem hi).symm
  rw [e]
  split_ifs <;> exact congrArg v.getLsbD (by omega)

/-- Two memories that agree on the four cells from `a` hold the same dword there. -/
theorem Memory.dword_congr {m m' : Memory} {a : Nat} (h : ∀ j < 4, m'.readByte (a + j) = m.readByte (a + j)) :
    m'.dword a = m.dword a := by
  have h0 := h 0 (by omega)
  simp only [Memory.dword, h 1 (by omega), h 2 (by omega), h 3 (by omega)]
  rw [Nat.add_zero] at h0
  rw [h0]

/-- A dword read after a dword write to the same address gives the dword written (R41, R42). -/
theorem Memory.dword_writeDword_self {m : Memory} (hm : m.wf) (a : Nat) (v : Word) : (m.writeDword a v).dword a = v := by
  have h0 := Memory.readByte_writeDword hm a v (j := 0) (by omega)
  rw [Nat.add_zero] at h0
  simp only [Memory.dword, h0, Memory.readByte_writeDword hm a v (j := 1) (by omega),
    Memory.readByte_writeDword hm a v (j := 2) (by omega), Memory.readByte_writeDword hm a v (j := 3) (by omega)]
  exact dwordOfBytes_dwordByte v

/-- A dword read apart from a written dword reads as before. -/
theorem Memory.dword_writeDword_apart (m : Memory) {a k : Nat} (v : Word) (h : k + 4 ≤ a ∨ a + 4 ≤ k) :
    (m.writeDword a v).dword k = m.dword k :=
  Memory.dword_congr fun j hj => Memory.readByte_writeDword_outside m v (by omega)

/-- A tabulated memory is in canonical form. -/
theorem Memory.wf_tabulate (n : Nat) (f : Nat → Byte) : (Memory.tabulate n f).wf := by
  refine Memory.wf_iff.2 ⟨List.Pairwise.filterMap _ (fun a b hab c hc d hd => ?_) List.pairwise_lt_range, fun c hc => ?_⟩
  · simp only [Option.ite_none_left_eq_some, Option.some.injEq] at hc hd
    obtain ⟨-, rfl⟩ := hc
    obtain ⟨-, rfl⟩ := hd
    exact hab
  · simp only [Memory.tabulate, List.mem_filterMap, Option.ite_none_left_eq_some, Option.some.injEq] at hc
    obtain ⟨a, -, ha, rfl⟩ := hc
    exact ha

/-- A tabulated memory lists only existing cells. -/
theorem Memory.below_tabulate (n : Nat) (f : Nat → Byte) : (Memory.tabulate n f).below n := Memory.below_iff.2 fun c hc => by
  simp only [Memory.tabulate, List.mem_filterMap, Option.ite_none_left_eq_some, Option.some.injEq, List.mem_range] at hc
  obtain ⟨a, ha, -, rfl⟩ := hc
  exact ha

/-- The image load keeps the canonical form. -/
theorem wf_loadImage {m : Memory} (hm : m.wf) (n a : Nat) (src : List Byte) : (loadImage n m a src).wf := by
  induction src generalizing m a with
  | nil => exact hm
  | cons b src ih =>
    simp only [loadImage]
    split
    · exact ih (Memory.wf_writeByte hm a b) (a + 1)
    · exact hm

/-- The image load lists only existing cells (R48). -/
theorem below_loadImage {m : Memory} {n : Nat} (hm : m.below n) (a : Nat) (src : List Byte) :
    (loadImage n m a src).below n := by
  induction src generalizing m a with
  | nil => exact hm
  | cons b src ih =>
    simp only [loadImage]
    split
    case isTrue h => exact ih (Memory.below_writeByte hm h b) (a + 1)
    case isFalse h => exact hm

/-- Placing bytes keeps the canonical form. -/
theorem wf_placeBytes {m : Memory} (hm : m.wf) (n : Nat) (a : Word) (bs : List Byte) : (placeBytes n m a bs).wf := by
  induction bs generalizing m a with
  | nil => exact hm
  | cons b bs ih =>
    simp only [placeBytes]
    split
    · exact ih (Memory.wf_writeByte hm _ b) _
    · exact ih hm _

/-- Placing bytes lists only existing cells. -/
theorem below_placeBytes {m : Memory} {n : Nat} (hm : m.below n) (a : Word) (bs : List Byte) :
    (placeBytes n m a bs).below n := by
  induction bs generalizing m a with
  | nil => exact hm
  | cons b bs ih =>
    simp only [placeBytes]
    split
    case isTrue h => exact ih (Memory.below_writeByte hm h b) _
    case isFalse h => exact ih hm _

/-- The reset memory is in canonical form. -/
theorem reset_mem_wf : State.reset.mem.wf := rfl

end Sys2Proof.Machine
end

