-- ==== Sys2Proof/Laws/Flags.lean ====
section
/-! SUPPORT. What the arithmetic engine computes, in the words of 43_arith_logic.md R105 and R106. -/

namespace Sys2Proof.Machine

variable {n : Nat} (a b : BitVec n)

/-- The result of `add_w` is the wrap-around sum. -/
@[simp] theorem addEngine_result : (addEngine a b).1 = a + b := by
  simp only [addEngine, BitVec.ofNat_add, BitVec.ofNat_toNat, BitVec.setWidth_eq]

/-- The result of `sub_w` is the wrap-around difference. -/
@[simp] theorem subEngine_result : (subEngine a b).1 = a - b := by
  simp only [subEngine]
  apply BitVec.eq_of_toInt_eq
  rw [BitVec.toInt_ofInt, BitVec.toInt_sub, BitVec.toInt_eq_toNat_bmod, BitVec.toInt_eq_toNat_bmod]
  simp

/-- The four flags of `add_w` (R105). -/
theorem addEngine_flags : (addEngine a b).2 =
    { zero := a + b == 0, negative := (a + b).msb, carry := decide (a.toNat + b.toNat > 2 ^ n - 1),
      overflow := !a.msb && !b.msb && (a + b).msb } := by
  have h : BitVec.ofNat n (a.toNat + b.toNat) = a + b := addEngine_result a b
  simp only [addEngine, h]

/-- The four flags of `sub_w` (R106). -/
theorem subEngine_flags : (subEngine a b).2 =
    { zero := a - b == 0, negative := (a - b).msb, carry := decide (a.toNat < b.toNat),
      overflow := a.msb && !b.msb && !(a - b).msb } := by
  have h : BitVec.ofInt n ((a.toNat : Int) - (b.toNat : Int)) = a - b := subEngine_result a b
  simp only [subEngine, h]

end Sys2Proof.Machine
end

