-- ==== Sys2Proof/Laws/Ops.lean ====
section
/-! SUPPORT. One lemma for each shared operation that says all it can do: what it answers where its accesses are in range,
which fault it raises where they are not, and the only way it can succeed. Proofs cite these and do not unfold the operations. -/

namespace Sys2Proof.Machine

/-! ### Sequencing and taking a fault -/

@[simp] theorem ok_bind {ε α β : Type} (a : α) (f : α → Except ε β) : (Except.ok a >>= f) = f a := rfl

@[simp] theorem error_bind {ε α β : Type} (e : ε) (f : α → Except ε β) :
    ((Except.error e : Except ε α) >>= f) = .error e := rfl

@[simp] theorem pure_eq_ok {ε α : Type} (a : α) : (pure a : Except ε α) = .ok a := rfl

@[simp] theorem throw_eq_error {ε α : Type} (e : ε) : (throw e : Except ε α) = .error e := rfl

/-- A sequence succeeds only where both parts do. -/
theorem bind_eq_ok {ε α β : Type} {x : Except ε α} {f : α → Except ε β} {b : β} (h : (x >>= f) = .ok b) :
    ∃ a, x = .ok a ∧ f a = .ok b := by
  cases x with
  | error e => exact nomatch h
  | ok a => exact ⟨a, rfl, h⟩

/-- A sequence raises what its first part raises, or what its second part raises. -/
theorem bind_eq_error {ε α β : Type} {x : Except ε α} {f : α → Except ε β} {e : ε} (h : (x >>= f) = .error e) :
    x = .error e ∨ ∃ a, x = .ok a ∧ f a = .error e := by
  cases x with
  | error e' => cases h; exact .inl rfl
  | ok a => exact .inr ⟨a, rfl, h⟩

@[simp] theorem commit_ok (s t : State) : commit s (.ok t) = .next t := rfl

@[simp] theorem commit_error (s : State) (f : Fault) : commit s (.error f) = .next (takeFault s f) := rfl

/-- A handler ends in its own next state or in the fault it raised, taken. -/
theorem commit_cases {s t : State} {r : Except Fault State} (h : commit s r = .next t) :
    r = .ok t ∨ ∃ f, r = .error f ∧ t = takeFault s f := by
  cases r with
  | ok u => cases h; exact .inl rfl
  | error f => cases h; exact .inr ⟨f, rfl, rfl⟩

/-- The machine a fault leaves satisfies the invariant's clauses on memory and fault record (R140). -/
theorem takeFault_mem_wf (s : State) (f : Fault) : (takeFault s f).mem.wf := Memory.wf_tabulate _ _

theorem takeFault_mem_below (s : State) (f : Fault) : (takeFault s f).mem.below s.config.memSize :=
  Memory.below_tabulate _ _

/-! ### Dword accesses -/

theorem memRead_of_inRange {s : State} {a : Word} (h : s.inRange a) : memRead s a = .ok (s.dwordAt a) := if_pos h

theorem memRead_of_not_inRange {s : State} {a : Word} (h : ¬s.inRange a) :
    memRead s a = .error (.outOfRangeAccess a) := if_neg h

theorem memRead_eq_ok {s : State} {a v : Word} (h : memRead s a = .ok v) : s.inRange a ∧ v = s.dwordAt a := by
  by_cases hr : s.inRange a
  · rw [memRead_of_inRange hr] at h; cases h; exact ⟨hr, rfl⟩
  · rw [memRead_of_not_inRange hr] at h; cases h

theorem memRead_eq_error {s : State} {a : Word} {f : Fault} (h : memRead s a = .error f) :
    ¬s.inRange a ∧ f = .outOfRangeAccess a := by
  by_cases hr : s.inRange a
  · rw [memRead_of_inRange hr] at h; cases h
  · rw [memRead_of_not_inRange hr] at h; cases h; exact ⟨hr, rfl⟩

theorem memWrite_of_inRange {s : State} {a : Word} (v : Word) (h : s.inRange a) :
    memWrite s a v = .ok (s.setMem (s.mem.writeDword a.toNat v)) := if_pos h

theorem memWrite_of_not_inRange {s : State} {a : Word} (v : Word) (h : ¬s.inRange a) :
    memWrite s a v = .error (.outOfRangeAccess a) := if_neg h

theorem memWrite_eq_ok {s t : State} {a v : Word} (h : memWrite s a v = .ok t) :
    s.inRange a ∧ t = s.setMem (s.mem.writeDword a.toNat v) := by
  by_cases hr : s.inRange a
  · rw [memWrite_of_inRange v hr] at h; cases h; exact ⟨hr, rfl⟩
  · rw [memWrite_of_not_inRange v hr] at h; cases h

theorem memWrite_eq_error {s : State} {a v : Word} {f : Fault} (h : memWrite s a v = .error f) :
    ¬s.inRange a ∧ f = .outOfRangeAccess a := by
  by_cases hr : s.inRange a
  · rw [memWrite_of_inRange v hr] at h; cases h
  · rw [memWrite_of_not_inRange v hr] at h; cases h; exact ⟨hr, rfl⟩

/-! ### Stack helpers -/

theorem push_of_inRange {s : State} (v : Word) (h : s.inRange (s.sp - 4)) :
    push s v = .ok ((s.setSp (s.sp - 4)).setMem (s.mem.writeDword (s.sp - 4).toNat v)) := by
  simp only [push, subEngine_result]
  exact memWrite_of_inRange (s := s.setSp (s.sp - 4)) v h

theorem push_of_not_inRange {s : State} (v : Word) (h : ¬s.inRange (s.sp - 4)) :
    push s v = .error (.outOfRangeAccess (s.sp - 4)) := by
  simp only [push, subEngine_result]
  exact memWrite_of_not_inRange (s := s.setSp (s.sp - 4)) v h

theorem push_eq_ok {s t : State} {v : Word} (h : push s v = .ok t) :
    s.inRange (s.sp - 4) ∧ t = (s.setSp (s.sp - 4)).setMem (s.mem.writeDword (s.sp - 4).toNat v) := by
  by_cases hr : s.inRange (s.sp - 4)
  · rw [push_of_inRange v hr] at h; cases h; exact ⟨hr, rfl⟩
  · rw [push_of_not_inRange v hr] at h; cases h

theorem push_eq_error {s : State} {v : Word} {f : Fault} (h : push s v = .error f) :
    ¬s.inRange (s.sp - 4) ∧ f = .outOfRangeAccess (s.sp - 4) := by
  by_cases hr : s.inRange (s.sp - 4)
  · rw [push_of_inRange v hr] at h; cases h
  · rw [push_of_not_inRange v hr] at h; cases h; exact ⟨hr, rfl⟩

theorem pop_of_inRange {s : State} (h : s.inRange s.sp) : pop s = .ok (s.dwordAt s.sp, s.setSp (s.sp + 4)) := by
  simp only [pop, memRead_of_inRange h, ok_bind, pure_eq_ok]

theorem pop_of_not_inRange {s : State} (h : ¬s.inRange s.sp) : pop s = .error (.outOfRangeAccess s.sp) := by
  simp only [pop, memRead_of_not_inRange h, error_bind]

theorem pop_eq_ok {s : State} {r : Word × State} (h : pop s = .ok r) :
    s.inRange s.sp ∧ r = (s.dwordAt s.sp, s.setSp (s.sp + 4)) := by
  by_cases hr : s.inRange s.sp
  · rw [pop_of_inRange hr] at h; cases h; exact ⟨hr, rfl⟩
  · rw [pop_of_not_inRange hr] at h; cases h

theorem pop_eq_error {s : State} {f : Fault} (h : pop s = .error f) :
    ¬s.inRange s.sp ∧ f = .outOfRangeAccess s.sp := by
  by_cases hr : s.inRange s.sp
  · rw [pop_of_inRange hr] at h; cases h
  · rw [pop_of_not_inRange hr] at h; cases h; exact ⟨hr, rfl⟩

/-- The address `Peek(k)` reads: `sp` itself, or `sp + 4`. -/
theorem peek_zero (s : State) : peek s 0 = memRead s s.sp := by simp [peek, u32]

theorem peek_one (s : State) : peek s 1 = memRead s (s.sp + 4) := rfl

end Sys2Proof.Machine
end

