-- ==== Sys2Proof/Laws/Operands.lean ====
section
/-! SUPPORT. What the operand forms answer, and what the shared shapes of several instructions can do. -/

namespace Sys2Proof.Machine

/-! ### Registers by id -/

@[simp] theorem regOfId_zero : regOfId 0 = some .sp := rfl
@[simp] theorem regOfId_one : regOfId 1 = some .bp := rfl
@[simp] theorem regOfId_two : regOfId 2 = some .pc := rfl

/-- "Ids 3 to 255 name no register" (R22). -/
theorem regOfId_eq_none {regid : Byte} (h : 3 ≤ regid.toNat) : regOfId regid = none := by
  have h0 : regid ≠ 0 := by rintro rfl; exact absurd h (by decide)
  have h1 : regid ≠ 1 := by rintro rfl; exact absurd h (by decide)
  have h2 : regid ≠ 2 := by rintro rfl; exact absurd h (by decide)
  rw [regOfId, if_neg h0, if_neg h1, if_neg h2]

/-- A well-formed register id names a register. -/
theorem regOfId_isSome_iff (regid : Byte) : (regOfId regid).isSome ↔ registerIdNamed regid = true := by
  revert regid; decide

theorem namedReg_of_some {s : State} {regid : Byte} {r : RegName} (h : regOfId regid = some r) :
    namedReg s regid = .ok r := by simp only [namedReg, h]

theorem namedReg_of_none {s : State} {regid : Byte} (h : regOfId regid = none) :
    namedReg s regid = .error (.invalidRegister regid s.offset) := by simp only [namedReg, h]

theorem namedReg_eq_ok {s : State} {regid : Byte} {r : RegName} (h : namedReg s regid = .ok r) : regOfId regid = some r := by
  cases hr : regOfId regid with
  | some r' => rw [namedReg_of_some hr] at h; cases h; rfl
  | none => rw [namedReg_of_none hr] at h; cases h

theorem namedReg_eq_error {s : State} {regid : Byte} {f : Fault} (h : namedReg s regid = .error f) :
    regOfId regid = none ∧ f = .invalidRegister regid s.offset := by
  cases hr : regOfId regid with
  | some r' => rw [namedReg_of_some hr] at h; cases h
  | none => rw [namedReg_of_none hr] at h; cases h; exact ⟨rfl, rfl⟩

/-! ### Register writes -/

section writeReg
variable (s : State) (r : RegName) (v : Word)
@[simp] theorem writeReg_config : (writeReg s r v).config = s.config := by cases r <;> rfl
@[simp] theorem writeReg_flags : (writeReg s r v).flags = s.flags := by cases r <;> rfl
@[simp] theorem writeReg_ir : (writeReg s r v).ir = s.ir := by cases r <;> rfl
@[simp] theorem writeReg_status : (writeReg s r v).status = s.status := by cases r <;> rfl
@[simp] theorem writeReg_faultRecord : (writeReg s r v).faultRecord = s.faultRecord := by cases r <;> rfl
@[simp] theorem writeReg_mem : (writeReg s r v).mem = s.mem := by cases r <;> rfl
/-- A register reads as written, and no other register changes. -/
theorem readReg_writeReg (r' : RegName) : readReg (writeReg s r v) r' = if r' = r then v else readReg s r' := by
  cases r <;> cases r' <;> rfl
end writeReg

/-! ### The inline operand -/

theorem takeOperand_of_inRange {s : State} (h : s.inRange s.pc) : takeOperand s = .ok (s.setPc (s.pc + 4)) := if_pos h

theorem takeOperand_of_not_inRange {s : State} (h : ¬s.inRange s.pc) :
    takeOperand s = .error (.outOfRangeAccess s.pc) := if_neg h

theorem takeOperand_eq_ok {s t : State} (h : takeOperand s = .ok t) : s.inRange s.pc ∧ t = s.setPc (s.pc + 4) := by
  by_cases hr : s.inRange s.pc
  · rw [takeOperand_of_inRange hr] at h; cases h; exact ⟨hr, rfl⟩
  · rw [takeOperand_of_not_inRange hr] at h; cases h

theorem takeOperand_eq_error {s : State} {f : Fault} (h : takeOperand s = .error f) :
    ¬s.inRange s.pc ∧ f = .outOfRangeAccess s.pc := by
  by_cases hr : s.inRange s.pc
  · rw [takeOperand_of_inRange hr] at h; cases h
  · rw [takeOperand_of_not_inRange hr] at h; cases h; exact ⟨hr, rfl⟩

/-- On an operand decoded from the dword at `pc`, `takeOperand` followed by that operand is `FetchOperand()` (R71). -/
theorem takeOperand_eq_fetchOperand (s : State) (imm : Word) (h : imm = s.dwordAt s.pc) :
    (takeOperand s).map (fun t => (imm, t)) = fetchOperand s := by
  by_cases hr : s.inRange s.pc
  · rw [takeOperand_of_inRange hr, fetchOperand, memRead_of_inRange hr, h]; rfl
  · rw [takeOperand_of_not_inRange hr, fetchOperand, memRead_of_not_inRange hr]; rfl

/-! ### Shared shapes -/

theorem pushZN_of_inRange {s : State} (v : Word) (h : s.inRange (s.sp - 4)) :
    pushZN s v = .ok (setZN ((s.setSp (s.sp - 4)).setMem (s.mem.writeDword (s.sp - 4).toNat v)) v) := by
  simp only [pushZN, push_of_inRange v h, ok_bind, pure_eq_ok]

theorem pushZN_of_not_inRange {s : State} (v : Word) (h : ¬s.inRange (s.sp - 4)) :
    pushZN s v = .error (.outOfRangeAccess (s.sp - 4)) := by
  simp only [pushZN, push_of_not_inRange v h, error_bind]

theorem pushZN_eq_ok {s t : State} {v : Word} (h : pushZN s v = .ok t) :
    s.inRange (s.sp - 4) ∧ t = setZN ((s.setSp (s.sp - 4)).setMem (s.mem.writeDword (s.sp - 4).toNat v)) v := by
  by_cases hr : s.inRange (s.sp - 4)
  · rw [pushZN_of_inRange v hr] at h; cases h; exact ⟨hr, rfl⟩
  · rw [pushZN_of_not_inRange v hr] at h; cases h

theorem pushZN_eq_error {s : State} {v : Word} {f : Fault} (h : pushZN s v = .error f) :
    ¬s.inRange (s.sp - 4) ∧ f = .outOfRangeAccess (s.sp - 4) := by
  by_cases hr : s.inRange (s.sp - 4)
  · rw [pushZN_of_inRange v hr] at h; cases h
  · rw [pushZN_of_not_inRange v hr] at h; cases h; exact ⟨hr, rfl⟩

theorem popTwo_of_inRange {s : State} (h : s.inRange s.sp) (h' : s.inRange (s.sp + 4)) :
    popTwo s = .ok (s.dwordAt (s.sp + 4), s.dwordAt s.sp, s.setSp (s.sp + 4 + 4)) := by
  have h2 : (s.setSp (s.sp + 4)).inRange (s.setSp (s.sp + 4)).sp := h'
  simp only [popTwo, pop_of_inRange h, ok_bind, pop_of_inRange h2, pure_eq_ok, State.setSp_sp, State.setSp_dwordAt,
    State.setSp_setSp]

theorem popTwo_of_first_not_inRange {s : State} (h : ¬s.inRange s.sp) : popTwo s = .error (.outOfRangeAccess s.sp) := by
  simp only [popTwo, pop_of_not_inRange h, error_bind]

theorem popTwo_of_second_not_inRange {s : State} (h : s.inRange s.sp) (h' : ¬s.inRange (s.sp + 4)) :
    popTwo s = .error (.outOfRangeAccess (s.sp + 4)) := by
  have h2 : ¬(s.setSp (s.sp + 4)).inRange (s.setSp (s.sp + 4)).sp := h'
  simp only [popTwo, pop_of_inRange h, ok_bind, pop_of_not_inRange h2, error_bind, State.setSp_sp]

theorem popTwo_eq_ok {s : State} {r : Word × Word × State} (h : popTwo s = .ok r) :
    s.inRange s.sp ∧ s.inRange (s.sp + 4) ∧
      r = (s.dwordAt (s.sp + 4), s.dwordAt s.sp, s.setSp (s.sp + 4 + 4)) := by
  by_cases h1 : s.inRange s.sp
  · by_cases h2 : s.inRange (s.sp + 4)
    · rw [popTwo_of_inRange h1 h2] at h; cases h; exact ⟨h1, h2, rfl⟩
    · rw [popTwo_of_second_not_inRange h1 h2] at h; cases h
  · rw [popTwo_of_first_not_inRange h1] at h; cases h

theorem popTwo_eq_error {s : State} {f : Fault} (h : popTwo s = .error f) :
    ∃ a, ¬s.inRange a ∧ f = .outOfRangeAccess a := by
  by_cases h1 : s.inRange s.sp
  · by_cases h2 : s.inRange (s.sp + 4)
    · rw [popTwo_of_inRange h1 h2] at h; cases h
    · rw [popTwo_of_second_not_inRange h1 h2] at h; cases h; exact ⟨_, h2, rfl⟩
  · rw [popTwo_of_first_not_inRange h1] at h; cases h; exact ⟨_, h1, rfl⟩

/-! ### Fetch and decode -/

/-- A fetch and decode succeed only where the word at `pc` is in range and its low byte is an opcode; the handler then starts
with `IR` holding that word and `pc` past it (R70). -/
theorem fetchDecode_eq_ok {s t : State} {i : Instr} (h : fetchDecode s = .ok (i, t)) :
    s.inRange s.pc ∧ t = (s.setIr (s.dwordAt s.pc)).setPc (s.pc + 4) ∧
      decodeWords s.config.opc (s.dwordAt s.pc) (s.dwordAt (s.pc + 4)) = some i := by
  obtain ⟨⟨w, u⟩, hw, h⟩ := bind_eq_ok h
  obtain ⟨w', hr, hu⟩ := bind_eq_ok hw
  obtain ⟨hin, rfl⟩ := memRead_eq_ok hr
  cases hu
  simp only [State.setPc_dwordAt, State.setIr_dwordAt, State.setPc_pc] at h
  split at h
  · rename_i j hj
    cases h
    exact ⟨hin, rfl, hj⟩
  · cases h

theorem fetchDecode_of_decodes {s : State} {i : Instr} (hin : s.inRange s.pc)
    (hd : decodeWords s.config.opc (s.dwordAt s.pc) (s.dwordAt (s.pc + 4)) = some i) :
    fetchDecode s = .ok (i, (s.setIr (s.dwordAt s.pc)).setPc (s.pc + 4)) := by
  simp only [fetchDecode, fetchWord, memRead_of_inRange hin, ok_bind, pure_eq_ok, State.setPc_dwordAt, State.setIr_dwordAt,
    State.setPc_pc, hd]

/-- The fetch fault (R70, R142). -/
theorem fetchDecode_of_not_inRange {s : State} (h : ¬s.inRange s.pc) :
    fetchDecode s = .error (.outOfRangeAccess s.pc) := by
  simp only [fetchDecode, fetchWord, memRead_of_not_inRange h, error_bind]

/-- The invalid opcode (R70, R141). -/
theorem fetchDecode_of_invalid {s : State} (hin : s.inRange s.pc)
    (hd : decodeWords s.config.opc (s.dwordAt s.pc) (s.dwordAt (s.pc + 4)) = none) :
    fetchDecode s = .error (.invalidOpcode (opcodeField (s.dwordAt s.pc)) s.pc) := by
  simp only [fetchDecode, fetchWord, memRead_of_inRange hin, ok_bind, pure_eq_ok, State.setPc_dwordAt, State.setIr_dwordAt,
    State.setPc_pc, hd, throw_eq_error]

end Sys2Proof.Machine
end

