-- ==== Sys2Proof/Laws/PerInstr.lean ====
section
/-! SUPPORT. Statements about the syntax of every instruction, one lemma per constructor. -/

namespace Sys2Proof.Laws

/-- The encoding of an instruction has the length of its row, "a function of its opcode alone" (30_encoding.md R58), and its
first byte is `OPC` of its row (R56: "`opcode` is the byte at address `pc`"). -/
def EncodingLength.Statement (i : Instr) : Prop :=
  ∀ opc : OpcodeMap, (encodeBytes opc i).length = lengthOf i.mnemonic ∧
    (encodeBytes opc i).head? = some (opc.value i.mnemonic)

/-- Byte 0 of word 0 is the opcode (R56). -/
theorem dwordByte_zero_wordZero (opc : OpcodeMap) (m : Mnemonic) (hi : Byte) :
    dwordByte (wordZero opc m hi) 0 = opc.value m := by
  simp only [wordZero, dwordOfBytes, dwordByte]
  ext k hk
  simp only [BitVec.getElem_extractLsb', BitVec.getLsbD_append]
  simp [hk]

/-- An encoding of one word. -/
theorem EncodingLength.of_word {opc : OpcodeMap} {i : Instr} {hi : Byte} (he : encode opc i = [wordZero opc i.mnemonic hi])
    (hl : lengthOf i.mnemonic = 4) :
    (encodeBytes opc i).length = lengthOf i.mnemonic ∧ (encodeBytes opc i).head? = some (opc.value i.mnemonic) := by
  simp [encodeBytes, he, hl, dwordBytes, dwordByte_zero_wordZero]

/-- An encoding of two words. -/
theorem EncodingLength.of_words {opc : OpcodeMap} {i : Instr} {imm : Word}
    (he : encode opc i = [wordZero opc i.mnemonic 0, imm]) (hl : lengthOf i.mnemonic = 8) :
    (encodeBytes opc i).length = lengthOf i.mnemonic ∧ (encodeBytes opc i).head? = some (opc.value i.mnemonic) := by
  simp [encodeBytes, he, hl, dwordBytes, dwordByte_zero_wordZero]

theorem EncodingLength.nop : EncodingLength.Statement .nop := fun _ => EncodingLength.of_word rfl rfl
theorem EncodingLength.halt : EncodingLength.Statement .halt := fun _ => EncodingLength.of_word rfl rfl
theorem EncodingLength.pushi (imm : Word) : EncodingLength.Statement (.pushi imm) := fun _ => EncodingLength.of_words rfl rfl
theorem EncodingLength.pushr (regid : Byte) : EncodingLength.Statement (.pushr regid) := fun _ => EncodingLength.of_word rfl rfl
theorem EncodingLength.popr (regid : Byte) : EncodingLength.Statement (.popr regid) := fun _ => EncodingLength.of_word rfl rfl
theorem EncodingLength.dropi : EncodingLength.Statement .dropi := fun _ => EncodingLength.of_word rfl rfl
theorem EncodingLength.dupi : EncodingLength.Statement .dupi := fun _ => EncodingLength.of_word rfl rfl
theorem EncodingLength.overi : EncodingLength.Statement .overi := fun _ => EncodingLength.of_word rfl rfl
theorem EncodingLength.swapi : EncodingLength.Statement .swapi := fun _ => EncodingLength.of_word rfl rfl
theorem EncodingLength.fchi : EncodingLength.Statement .fchi := fun _ => EncodingLength.of_word rfl rfl
theorem EncodingLength.stri : EncodingLength.Statement .stri := fun _ => EncodingLength.of_word rfl rfl
theorem EncodingLength.addi : EncodingLength.Statement .addi := fun _ => EncodingLength.of_word rfl rfl
theorem EncodingLength.subi : EncodingLength.Statement .subi := fun _ => EncodingLength.of_word rfl rfl
theorem EncodingLength.andi : EncodingLength.Statement .andi := fun _ => EncodingLength.of_word rfl rfl
theorem EncodingLength.ori : EncodingLength.Statement .ori := fun _ => EncodingLength.of_word rfl rfl
theorem EncodingLength.xori : EncodingLength.Statement .xori := fun _ => EncodingLength.of_word rfl rfl
theorem EncodingLength.jmp (target : Word) : EncodingLength.Statement (.jmp target) := fun _ => EncodingLength.of_words rfl rfl
theorem EncodingLength.ifz (target : Word) : EncodingLength.Statement (.ifz target) := fun _ => EncodingLength.of_words rfl rfl
theorem EncodingLength.call : EncodingLength.Statement .call := fun _ => EncodingLength.of_word rfl rfl
theorem EncodingLength.ret : EncodingLength.Statement .ret := fun _ => EncodingLength.of_word rfl rfl

end Sys2Proof.Laws
end

