-- ==== Sys2Proof/Laws/Step.lean ====
section
/-! SUPPORT. Everything a step can do. -/

namespace Sys2Proof.Machine

/-- A machine that is not running does not change (R73). -/
theorem step_of_not_running {s : State} (h : s.status ≠ .running) : step s = .next s := by
  cases hs : s.status with
  | running => exact absurd hs h
  | halted => simp only [step, hs]
  | faulted => simp only [step, hs]

theorem step_of_fetch_error {s : State} {f : Fault} (h : s.status = .running) (hf : fetchDecode s = .error f) :
    step s = .next (takeFault s f) := by simp only [step, h, hf]

theorem step_of_fetch_ok {s t : State} {i : Instr} (h : s.status = .running) (hf : fetchDecode s = .ok (i, t)) :
    step s = exec i t := by simp only [step, h, hf]

/-- A running machine takes the fault its fetch and decode raise, or runs the instruction they give. -/
theorem step_of_running {s : State} (h : s.status = .running) :
    (∃ f, fetchDecode s = .error f ∧ step s = .next (takeFault s f)) ∨
      ∃ i t, fetchDecode s = .ok (i, t) ∧ step s = exec i t := by
  cases hf : fetchDecode s with
  | error f => exact .inl ⟨f, rfl, by simp only [step, h, hf]⟩
  | ok r => exact .inr ⟨r.1, r.2, rfl, by simp only [step, h, hf]⟩

/-- Every instruction ends by `commit`: a handler that answers or raises. -/
theorem exec_eq_commit (i : Instr) (s : State) : ∃ r, exec i s = commit s r := by
  cases i with
  | nop => exact ⟨.ok s, rfl⟩
  | halt => exact ⟨.ok (s.setStatus .halted), rfl⟩
  | _ => exact ⟨_, rfl⟩

/-- A handler ends in a next state: its own, or the fault it raised, taken. No instruction stops the machine. -/
theorem exec_eq_next (i : Instr) (s : State) : ∃ t, exec i s = .next t := by
  obtain ⟨r, hr⟩ := exec_eq_commit i s
  cases r with
  | ok t => exact ⟨t, hr⟩
  | error f => exact ⟨takeFault s f, hr⟩

/-- The host's iteration takes one step and goes on. -/
theorem core_run_succ {s t : State} (n : Nat) (h : step s = .next t) :
    Host.Core.run Sys2Proof.core (n + 1) s = Host.Core.run Sys2Proof.core n t := by
  have hs : Sys2Proof.core.step s = .next t := h
  have hr := Host.Core.run.eq_2 Sys2Proof.core s n
  rw [hs] at hr
  exact hr

/-- The host's iteration of no step. -/
theorem core_run_zero (s : State) : Host.Core.run Sys2Proof.core 0 s = .next s := rfl

end Sys2Proof.Machine
end

