-- ==== Sys2Proof/Laws/Safety.lean ====
section
/-! SUPPORT. The terms of Safety.lean and the operations: what a dword write stores, what a taken fault is, and the stack
addresses of an instruction that pops and then pushes. -/

namespace Sys2Proof.Machine

/-- A dword write stores its dword and touches nothing else (R42). -/
theorem DwordStored.of_writeDword {m : Memory} (hm : m.wf) (a v : Word) : DwordStored m (m.writeDword a.toNat v) a v :=
  ⟨Memory.dword_writeDword_self hm _ _, fun _ hk => Memory.readByte_writeDword_outside _ _ hk⟩

/-- A handler that ends in a taken fault takes that fault. -/
theorem Faults.of_takeFault {i : Instr} {s : State} {f : Fault} (h : exec i s = .next (takeFault s f)) : Faults i s f :=
  ⟨_, h, rfl, rfl, rfl⟩

/-- The flag rule of `setZN` in the words of R83. -/
theorem flagsZN_eq_zeroNegativeOf (f : Flags) (v : Word) : flagsZN f v = zeroNegativeOf f v := by
  simp only [flagsZN, writeFlags, zeroNegativeOf, BitVec.msb_eq_getLsbD_last]
  rfl

/-- A push after a pop writes where the pop read. -/
theorem add_four_sub_four (a : Word) : a + 4 - 4 = a := by bv_omega

/-- Two pops raise `sp` by 8. -/
theorem add_four_add_four (a : Word) : a + 4 + 4 = a + 8 := by bv_omega

/-- A push after two pops writes where the second pop read, and cannot fault (43_arith_logic.md R111). -/
theorem push_after_popTwo {s : State} (h : s.inRange (s.sp + 4)) (v : Word) :
    push (s.setSp (s.sp + 4 + 4)) v =
      .ok ((s.setSp (s.sp + 4)).setMem (s.mem.writeDword (s.sp + 4).toNat v)) := by
  have e : (s.setSp (s.sp + 4 + 4)).sp - 4 = s.sp + 4 := add_four_sub_four (s.sp + 4)
  have hr : (s.setSp (s.sp + 4 + 4)).inRange ((s.setSp (s.sp + 4 + 4)).sp - 4) := by rw [e]; exact h
  rw [push_of_inRange v hr, e]
  rfl

end Sys2Proof.Machine
end

