-- ==== Sys2Proof/Tests/Slice0.lean ====
section
/-! SUPPORT. Tests. Words are written out from the encoding table of 30_encoding.md R59 and the examples of R68; the expected
results of single instructions are the vectors of 95_test_vectors.md, named in each comment. Then one theorem for each
obligation that has hypotheses, which shows states that meet them. -/

namespace Sys2Proof.Tests

open Sys2Proof.Machine

/-! ### Well-formedness: each check refuses an ill-formed term -/

theorem test_wellFormed_refuses_pushr_3 : (Instr.pushr 3).wellFormed = false := by decide
theorem test_wellFormed_refuses_popr_255 : (Instr.popr 255).wellFormed = false := by decide
theorem test_wellFormed_accepts_popr_2 : (Instr.popr 2).wellFormed = true := by decide

/-! ### Decoding: bytes written out from the table of R59 -/

/-- Decoding under the reference assignment. -/
def dec (bs : List Byte) : Decoded := decode OpcodeMap.reference bs

theorem test_decode_nop : dec [0x00, 0, 0, 0] = .instr .nop [] := by decide
theorem test_decode_halt : dec [0x01, 0, 0, 0] = .instr .halt [] := by decide
theorem test_decode_pushi : dec [0x02, 0, 0, 0, 0x78, 0x56, 0x34, 0x12] = .instr (.pushi 0x12345678) [] := by decide
theorem test_decode_pushr : dec [0x03, 0, 0, 0x02] = .instr (.pushr 2) [] := by decide
theorem test_decode_popr : dec [0x04, 0, 0, 0x01] = .instr (.popr 1) [] := by decide
theorem test_decode_dropi : dec [0x05, 0, 0, 0] = .instr .dropi [] := by decide
theorem test_decode_dupi : dec [0x06, 0, 0, 0] = .instr .dupi [] := by decide
theorem test_decode_overi : dec [0x07, 0, 0, 0] = .instr .overi [] := by decide
theorem test_decode_swapi : dec [0x08, 0, 0, 0] = .instr .swapi [] := by decide
theorem test_decode_fchi : dec [0x09, 0, 0, 0] = .instr .fchi [] := by decide
theorem test_decode_stri : dec [0x0A, 0, 0, 0] = .instr .stri [] := by decide
theorem test_decode_addi : dec [0x0B, 0, 0, 0] = .instr .addi [] := by decide
theorem test_decode_subi : dec [0x0C, 0, 0, 0] = .instr .subi [] := by decide
theorem test_decode_andi : dec [0x0D, 0, 0, 0] = .instr .andi [] := by decide
theorem test_decode_ori : dec [0x0E, 0, 0, 0] = .instr .ori [] := by decide
theorem test_decode_xori : dec [0x0F, 0, 0, 0] = .instr .xori [] := by decide
theorem test_decode_jmp : dec [0x10, 0, 0, 0, 0x34, 0x12, 0, 0] = .instr (.jmp 0x1234) [] := by decide
theorem test_decode_if : dec [0x11, 0, 0, 0, 0x28, 0, 0, 0, 0x02] = .instr (.ifz 0x28) [0x02] := by decide
theorem test_decode_call : dec [0x12, 0, 0, 0] = .instr .call [] := by decide
theorem test_decode_ret : dec [0x13, 0, 0, 0] = .instr .ret [] := by decide

/-- E4: the first byte that is no opcode under the reference assignment. -/
theorem test_decode_0x14_is_invalid : dec [0x14, 0, 0, 0] = .invalidOpcode 0x14 := by decide

/-- E2: unused bits set. -/
theorem test_decode_ignores_unused_bits : dec [0x01, 0xFF, 0xFF, 0xFF] = .instr .halt [] := by decide

/-- PUSHI without the whole of its operand. -/
theorem test_decode_truncated : dec [0x02, 0, 0, 0, 1, 2, 3] = .truncated := by decide

/-- `JMP 0x1234` as one number, the second word in bits 63..32. -/
theorem test_decodeTableWord_two_words : decodeTableWord 64 0x0000123400000010 = some (.jmp 0x1234) := by decide

/-- The same row given with 32 bits: the operand word is 0. -/
theorem test_decodeTableWord_short : decodeTableWord 32 0xFFFF00000010 = some (.jmp 0) := by decide

/-! ### Single instructions -/

/-- The reference machine with `pc`, `sp` and some dwords of memory. -/
def machine (pc sp : Word) (cells : List (Nat × Word)) : State :=
  { State.reset with
    pc := pc
    sp := sp
    mem := cells.foldl (fun m c => m.writeDword c.1 c.2) [] }

/-- The next state, if there is one. -/
def after (i : Instr) (s : State) : Option State :=
  match exec i s with
  | .next t => some t
  | .fault _ => none
  | .refused _ => none

/-- `pc`, `sp` and the dword there. -/
def top (i : Instr) (s : State) : Option (Word × Word × Word) := (after i s).map fun t => (t.pc, t.sp, t.dwordAt t.sp)

/-- The four flags as Z N C V. -/
def znvc (i : Instr) (s : State) : Option (Bool × Bool × Bool × Bool) :=
  (after i s).map fun t => (t.flags.zero, t.flags.negative, t.flags.carry, t.flags.overflow)

/-- The fault record. -/
def record (i : Instr) (s : State) : Option (Option Fault) := (after i s).map fun t => t.faultRecord

/-- R78: NOP at 0x10 gives pc 0x14 (here by `step`, the handler starting past the word). -/
theorem test_nop : top .nop (machine 0x14 0xFFFC []) = some (0x14, 0xFFFC, 0) := by decide

/-- E1. -/
theorem test_halt : (after .halt (machine 4 0xFFFC [])).map (fun t => (t.status, t.stop, t.pc)) = some (.halted, true, 4) := by
  decide

/-- S2. -/
theorem test_pushi : top (.pushi 0xFFFFFFFF) (machine 0x104 0xFFFC []) = some (0x108, 0xFFF8, 0xFFFFFFFF) := by decide
theorem test_pushi_flags : znvc (.pushi 0xFFFFFFFF) (machine 0x104 0xFFFC []) = some (false, true, false, false) := by decide

/-- S3: the value of `sp` before the push. -/
theorem test_pushr_sp : top (.pushr 0) (machine 0x104 0xFFFC []) = some (0x104, 0xFFF8, 0xFFFC) := by decide

/-- S17. -/
theorem test_pushr_3 : record (.pushr 3) (machine 0x104 0xFFFC []) = some (some (.invalidRegister 3 0x100)) := by decide

/-- S8: the popped value, not the incremented `sp`. -/
theorem test_popr_sp : top (.popr 0) (machine 0x104 0xFFF8 [(0xFFF8, 0x8000)]) = some (0x104, 0x8000, 0) := by decide

/-- S18. -/
theorem test_popr_255 : record (.popr 255) (machine 0x104 0xFFF8 []) = some (some (.invalidRegister 255 0x100)) := by decide

/-- S10: the empty stack pops. -/
theorem test_dropi_empty : top .dropi (machine 0x104 0xFFFC []) = some (0x104, 0x10000, 0) := by decide

/-- S11. -/
theorem test_dupi : top .dupi (machine 0x104 0xFFF8 [(0xFFF8, 3)]) = some (0x104, 0xFFF4, 3) := by decide

/-- S13. -/
theorem test_overi : top .overi (machine 0x104 0xFFF4 [(0xFFF8, 1)]) = some (0x104, 0xFFF0, 1) := by decide

/-- S14. -/
theorem test_overi_empty : record .overi (machine 0x104 0xFFFC []) = some (some (.outOfRangeAccess 0x10000)) := by decide

/-- S16. -/
theorem test_swapi :
    (after .swapi (machine 0x104 0xFFF4 [(0xFFF8, 0), (0xFFF4, 7)])).map
      (fun t => (t.sp, t.dwordAt 0xFFF4, t.dwordAt 0xFFF8, t.flags.zero)) = some (0xFFF4, 0, 7, true) := by decide

/-- M2: unaligned, little-endian. -/
theorem test_fchi_unaligned :
    top .fchi (machine 0x104 0xFFF8 [(0xFFF8, 0x21), (0x21, 0x44332211)]) = some (0x104, 0xFFF8, 0x44332211) := by decide

/-- M4. -/
theorem test_fchi_out_of_range :
    record .fchi (machine 0x104 0xFFF8 [(0xFFF8, 0xFFFD)]) = some (some (.outOfRangeAccess 0xFFFD)) := by decide

/-- M7. -/
theorem test_stri_bytes :
    (after .stri (machine 0x104 0xFFF4 [(0xFFF8, 0x12345678), (0xFFF4, 0x10)])).map
      (fun t => (t.sp, t.mem.readByte 0x10, t.mem.readByte 0x11, t.mem.readByte 0x12, t.mem.readByte 0x13)) =
      some (0xFFFC, 0x78, 0x56, 0x34, 0x12) := by decide

/-- M8. -/
theorem test_stri_out_of_range :
    record .stri (machine 0x104 0xFFF4 [(0xFFF8, 5), (0xFFF4, 0x10000)]) = some (some (.outOfRangeAccess 0x10000)) := by
  decide

/-- L3: overflow not raised. -/
theorem test_addi_negatives :
    znvc .addi (machine 0x104 0xFFF4 [(0xFFF8, 0x80000000), (0xFFF4, 0x80000000)]) = some (true, false, true, false) := by
  decide

/-- L14: one element only. -/
theorem test_addi_one_element : top .addi (machine 0x104 0xFFF8 [(0xFFF8, 7)]) = some (0x104, 0xFFFC, 7) := by decide

/-- L5: second minus top. -/
theorem test_subi : top .subi (machine 0x104 0xFFF4 [(0xFFF8, 1), (0xFFF4, 10)]) = some (0x104, 0xFFF8, 0xFFFFFFF7) := by
  decide

/-- L6. -/
theorem test_subi_flags :
    znvc .subi (machine 0x104 0xFFF4 [(0xFFF8, 0x80000000), (0xFFF4, 1)]) = some (false, false, false, true) := by decide

/-- L7. -/
theorem test_andi : top .andi (machine 0x104 0xFFF4 [(0xFFF8, 0xF0F0), (0xFFF4, 0xFF00)]) = some (0x104, 0xFFF8, 0xF000) := by
  decide

/-- L13, second half: carry is kept. -/
theorem test_andi_keeps_carry :
    znvc .andi { machine 0x104 0xFFF4 [(0xFFF8, 0xFF00), (0xFFF4, 0xFF)] with
      flags := { zero := false, negative := false, carry := true, overflow := false } } =
      some (true, false, true, false) := by decide

/-- L9. -/
theorem test_ori : top .ori (machine 0x104 0xFFF4 [(0xFFF8, 0x0F), (0xFFF4, 0xF0)]) = some (0x104, 0xFFF8, 0xFF) := by decide

/-- L11. -/
theorem test_xori :
    top .xori (machine 0x104 0xFFF4 [(0xFFF8, 0xFFFFFFFF), (0xFFF4, 0x7FFFFFFF)]) = some (0x104, 0xFFF8, 0x80000000) := by
  decide

/-- C2v: an unaligned target. -/
theorem test_jmp : top (.jmp 0x41) (machine 0x14 0xFFFC []) = some (0x41, 0xFFFC, 0) := by decide

/-- C6v: all 32 bits of the condition count. -/
theorem test_if_falls_through : top (.ifz 0x40) (machine 0x14 0xFFF8 [(0xFFF8, 0x80000000)]) = some (0x18, 0xFFFC, 0) := by
  decide

/-- C7v. -/
theorem test_if_taken : top (.ifz 0x40) (machine 0x14 0xFFFC []) = some (0x40, 0x10000, 0) := by decide

/-- C8v. -/
theorem test_call :
    top .call (machine 0x14 0xFFF4 [(0xFFF8, 10), (0xFFF4, 0x30)]) = some (0x30, 0xFFF4, 0x14) := by decide

/-- C9v. -/
theorem test_ret : top .ret (machine 0x48 0xFFF4 [(0xFFF8, 9), (0xFFF4, 0x14)]) = some (0x14, 0xFFF8, 9) := by decide

/-! ### The arithmetic engine at width 1 (W1 to W4, A5, A7) -/

/-- Result and flags Z N C V of an engine call. -/
def engineView {n : Nat} (r : BitVec n × Flags) : BitVec n × Bool × Bool × Bool × Bool :=
  (r.1, r.2.zero, r.2.negative, r.2.carry, r.2.overflow)

theorem test_add_w1 : engineView (addEngine (0x7f : Byte) 0x01) = (0x80, false, true, false, true) := by decide
theorem test_add_w2 : engineView (addEngine (0xff : Byte) 0x01) = (0x00, true, false, true, false) := by decide
theorem test_add_a5 : engineView (addEngine (0x80 : Byte) 0x80) = (0x00, true, false, true, false) := by decide
theorem test_sub_w3 : engineView (subEngine (0x80 : Byte) 0x01) = (0x7f, false, false, false, true) := by decide
theorem test_sub_w4 : engineView (subEngine (0x00 : Byte) 0x01) = (0xff, false, true, true, false) := by decide
theorem test_sub_a7 : engineView (subEngine (0x7f : Byte) 0xff) = (0x80, false, true, true, false) := by decide

/-! ### The step, the placed word and the host interface -/

/-- The first step after reset runs the placed word. -/
theorem test_step_runs_placed_word :
    (match step (State.reset.withFetchWord 64 0x0000123400000010) with
      | .next t => some (t.pc, t.ir, t.status)
      | .fault _ => none
      | .refused _ => none) = some (0x1234, 0x10, .running) := by decide

/-- E3: the fault record of an invalid opcode. -/
theorem test_step_invalid_opcode :
    (match step (State.reset.withFetchWord 32 0xFF) with
      | .next t => some (t.status, t.faultRecord)
      | .fault _ => none
      | .refused _ => none) = some (.faulted, some (.invalidOpcode 0xFF 0)) := by decide

/-- E5 and R48: past a short image memory is 0. -/
theorem test_construct_short_image :
    ((construct Config.reference [1, 2, 0, 3]).mem, (construct Config.reference [1, 2, 0, 3]).sp) =
      ([(0, 1), (1, 2), (3, 3)], 0xFFFC) := by decide

/-- R48: the excess of a long image is never read. -/
theorem test_construct_long_image :
    (construct { Config.reference with memSize := 4 } [1, 2, 3, 4, 5]).mem = [(0, 1), (1, 2), (2, 3), (3, 4)] := by decide

/-- R29: bit 0 overflow, 1 zero, 2 carry, 3 negative. -/
theorem test_statusWord :
    statusWord { zero := true, negative := false, carry := true, overflow := false } = 0b0110 := by decide

/-- R28. -/
theorem test_selectFlags :
    selectFlags { zero := true, negative := false, carry := true, overflow := false } 0b1010 =
      [(.zero, true), (.negative, false)] := by decide

/-! ### Hypotheses that can be met

One theorem for each obligation with hypotheses: states and operands that meet them, one for each clause, at the edges of the
ranges. 0xFFFC is the last address in range, 0xFFFD the first out of range; 4 is the least `sp` a push is in range at. -/

/-- The machine about to fetch `w` at address 0, with `w1` after it. -/
def fetching (w w1 : Word) : State := machine 0 0xFFFC [(0, w), (4, w1)]

/-- A machine that stores, at `sp` 0xFFF4, to the address `a`. -/
def storing (a : Word) : State := machine 0x104 0xFFF4 [(0xFFF4, a), (0xFFF8, 0x12345678)]

theorem test_meets_DecodeOfEncode : OpcodeMap.reference.injective := by decide

theorem test_meets_UnusedBits :
    ((0x03000003 : Word).extractLsb' 0 8 = (0x03FFFF03 : Word).extractLsb' 0 8 ∧
      (0x03000003 : Word).extractLsb' 24 8 = (0x03FFFF03 : Word).extractLsb' 24 8) ∧
    ((0x05 : Word).extractLsb' 0 8 = (0xFFFFFF05 : Word).extractLsb' 0 8 ∧
      decodeWords OpcodeMap.reference 0x05 7 = some .dropi) := by decide

theorem test_meets_StepRuns :
    (machine 0xFFFC 0xFFF8 [(0xFFFC, 1)]).status = .running ∧ (machine 0xFFFC 0xFFF8 [(0xFFFC, 1)]).inRange 0xFFFC ∧
      decodeWords OpcodeMap.reference ((machine 0xFFFC 0xFFF8 [(0xFFFC, 1)]).dwordAt 0xFFFC)
        ((machine 0xFFFC 0xFFF8 [(0xFFFC, 1)]).dwordAt (0xFFFC + 4)) = some .halt := by decide

theorem test_meets_OperandsComeFromTheirPlaces :
    (fetching 2 9).status = .running ∧ (fetching 2 9).inRange (fetching 2 9).pc ∧
      OpcodeMap.reference.pushi = ((fetching 2 9).dwordAt 0).extractLsb' 0 8 ∧
      OpcodeMap.reference.jmp = ((fetching 0x10 9).dwordAt 0).extractLsb' 0 8 ∧
      OpcodeMap.reference.ifz = ((fetching 0x11 9).dwordAt 0).extractLsb' 0 8 ∧
      OpcodeMap.reference.pushr = ((fetching 0xFF000003 9).dwordAt 0).extractLsb' 0 8 ∧
      OpcodeMap.reference.popr = ((fetching 0x02000004 9).dwordAt 0).extractLsb' 0 8 := by decide

theorem test_meets_TickFaults_fetch : (machine 0xFFFD 0xFFFC []).status = .running ∧ ¬(machine 0xFFFD 0xFFFC []).inRange 0xFFFD := by
  decide

theorem test_meets_TickFaults_opcode : (fetching 0x14 0).status = .running ∧ (fetching 0x14 0).inRange 0 ∧
    ∀ m, (fetching 0x14 0).config.opc.value m ≠ ((fetching 0x14 0).dwordAt 0).extractLsb' 0 8 :=
  ⟨by decide, by decide, fun m => by cases m <;> decide⟩

theorem test_meets_StoppedMachine :
    (State.reset.setStatus .halted).status = .halted ∧ (State.reset.setStatus .faulted).status = .faulted := by decide

theorem test_meets_StepKeepsInvariant : State.reset.inv ∧ ∃ t, step State.reset = .next t := ⟨by decide, _, rfl⟩

/-- `MEM_SIZE` at its default and at both ends of its range. -/
theorem test_meets_ConstructStatements :
    Config.reference.wf ∧ Config.wf { Config.reference with memSize := 4 } ∧
      Config.wf { Config.reference with memSize := 2 ^ 32 } := by decide

theorem test_meets_Nop_and_Halt :
    (fetching 0 0).status = .running ∧ (fetching 0 0).inRange 0 ∧ (fetching 0 0).config.opc.injective ∧
      (fetching 0 0).config.opc.nop = ((fetching 0 0).dwordAt (fetching 0 0).pc).extractLsb' 0 8 ∧
      (fetching 1 0).status = .running ∧ (fetching 1 0).inRange 0 ∧ (fetching 1 0).config.opc.injective ∧
      (fetching 1 0).config.opc.halt = ((fetching 1 0).dwordAt (fetching 1 0).pc).extractLsb' 0 8 := by decide

theorem test_meets_OnlyHaltHalts :
    State.reset.status = .running ∧ (∃ t, exec .halt State.reset = .next t) ∧ ∃ t, exec .nop State.reset = .next t :=
  ⟨rfl, ⟨_, rfl⟩, ⟨_, rfl⟩⟩

/-- PUSHI, JMP: operand past the end, then in range with the push out of range, then both in range. -/
theorem test_meets_Pushi_and_Jmp :
    ¬(machine 0xFFFD 0xFFFC []).inRange (machine 0xFFFD 0xFFFC []).pc ∧
    ((machine 0xFFFC 3 []).inRange (machine 0xFFFC 3 []).pc ∧ ¬(machine 0xFFFC 3 []).inRange ((machine 0xFFFC 3 []).sp - 4)) ∧
    ((machine 0xFFFC 4 []).inRange (machine 0xFFFC 4 []).pc ∧ (machine 0xFFFC 4 []).inRange ((machine 0xFFFC 4 []).sp - 4) ∧
      (machine 0xFFFC 4 []).mem.wf) := by decide

/-- PUSHR and POPR: the ids 2 and 3 at the edge, and each named register. -/
theorem test_meets_Pushr_and_Popr :
    3 ≤ (3 : Byte).toNat ∧ (2 : Byte).toNat < 3 ∧ ¬(machine 0 3 []).inRange ((machine 0 3 []).sp - 4) ∧
      (machine 0 4 []).inRange ((machine 0 4 []).sp - 4) ∧ (machine 0 4 []).mem.wf ∧
      ¬(machine 0 0xFFFD []).inRange (machine 0 0xFFFD []).sp ∧ (machine 0 0xFFFC []).inRange (machine 0 0xFFFC []).sp := by
  decide

/-- DROPI, RET, CALL: `sp` at both sides of the edge. -/
theorem test_meets_PopOnly :
    ¬(machine 0 0xFFFD []).inRange (machine 0 0xFFFD []).sp ∧ (machine 0 0xFFFC []).inRange (machine 0 0xFFFC []).sp ∧
      (machine 0 0xFFFC []).mem.wf := by decide

/-- DUPI: the peek out of range, the push out of range, both in range. -/
theorem test_meets_Dupi :
    ¬(machine 0 0xFFFD []).inRange (machine 0 0xFFFD []).sp ∧
    ((machine 0 3 []).inRange (machine 0 3 []).sp ∧ ¬(machine 0 3 []).inRange ((machine 0 3 []).sp - 4)) ∧
    ((machine 0 4 []).inRange (machine 0 4 []).sp ∧ (machine 0 4 []).inRange ((machine 0 4 []).sp - 4) ∧
      (machine 0 4 []).mem.wf) := by decide

/-- OVERI: the peek out of range, the push out of range, both in range. -/
theorem test_meets_Overi :
    ¬(machine 0 0xFFF9 []).inRange ((machine 0 0xFFF9 []).sp + 4) ∧
    ((machine 0 3 []).inRange ((machine 0 3 []).sp + 4) ∧ ¬(machine 0 3 []).inRange ((machine 0 3 []).sp - 4)) ∧
    ((machine 0 0xFFF8 []).inRange ((machine 0 0xFFF8 []).sp + 4) ∧
      (machine 0 0xFFF8 []).inRange ((machine 0 0xFFF8 []).sp - 4) ∧ (machine 0 0xFFF8 []).mem.wf) := by decide

/-- SWAPI, ADDI, SUBI, ANDI, ORI, XORI: the first pop out of range, the second, neither. -/
theorem test_meets_TwoPops :
    ¬(machine 0 0xFFFD []).inRange (machine 0 0xFFFD []).sp ∧
    ((machine 0 0xFFFC []).inRange (machine 0 0xFFFC []).sp ∧ ¬(machine 0 0xFFFC []).inRange ((machine 0 0xFFFC []).sp + 4)) ∧
    ((machine 0 0xFFF8 []).inRange (machine 0 0xFFF8 []).sp ∧ (machine 0 0xFFF8 []).inRange ((machine 0 0xFFF8 []).sp + 4) ∧
      (machine 0 0xFFF8 []).mem.wf) := by decide

/-- FCHI: the pop out of range, the address out of range, both in range. -/
theorem test_meets_Fchi :
    ¬(machine 0 0xFFFD []).inRange (machine 0 0xFFFD []).sp ∧
    ((storing 0xFFFD).inRange (storing 0xFFFD).sp ∧ ¬(storing 0xFFFD).inRange ((storing 0xFFFD).dwordAt (storing 0xFFFD).sp)) ∧
    ((storing 0xFFFC).inRange (storing 0xFFFC).sp ∧ (storing 0xFFFC).inRange ((storing 0xFFFC).dwordAt (storing 0xFFFC).sp) ∧
      (storing 0xFFFC).mem.wf) := by decide

/-- STRI beyond its pops: the address out of range, the address in range. -/
theorem test_meets_Stri :
    ((storing 0xFFFD).inRange (storing 0xFFFD).sp ∧ (storing 0xFFFD).inRange ((storing 0xFFFD).sp + 4) ∧
      ¬(storing 0xFFFD).inRange ((storing 0xFFFD).dwordAt (storing 0xFFFD).sp)) ∧
    ((storing 0xFFFC).inRange (storing 0xFFFC).sp ∧ (storing 0xFFFC).inRange ((storing 0xFFFC).sp + 4) ∧
      (storing 0xFFFC).inRange ((storing 0xFFFC).dwordAt (storing 0xFFFC).sp) ∧ (storing 0xFFFC).mem.wf) := by decide

theorem test_meets_MemWrite : ¬State.reset.inRange 0xFFFD ∧ State.reset.inRange 0xFFFC ∧ State.reset.mem.wf := by decide

theorem test_meets_MemRead :
    4 ≤ State.reset.config.memSize ∧ (0xFFFC : Word).toNat + 3 ≤ State.reset.config.memSize - 1 ∧
      ¬(0xFFFD : Word).toNat + 3 ≤ State.reset.config.memSize - 1 := by decide

theorem test_meets_OverlappingDwords : Memory.wf [(1, 5), (9, 7)] ∧ 3 < 4 ∧ 0 < 4 := by decide

theorem test_meets_CanonicalMemories : Memory.wf [(1, 5), (9, 7)] ∧ ∀ a, Memory.readByte [(1, 5), (9, 7)] a = Memory.readByte [(1, 5), (9, 7)] a :=
  ⟨by decide, fun _ => rfl⟩

/-- The least width of the engine. -/
theorem test_meets_EngineWidths : 1 ≤ 1 := by decide

theorem test_meets_Bitwise :
    (Instr.andi = .andi ∧ and = and) ∧ (Instr.ori = .ori ∧ or = or) ∧ (Instr.xori = .xori ∧ xor = xor) :=
  ⟨⟨rfl, rfl⟩, ⟨rfl, rfl⟩, ⟨rfl, rfl⟩⟩

/-- IF (C11v, C12v): the pop out of range, the operand out of range, neither. -/
theorem test_meets_If :
    ¬(machine 0xFFFD 0xFFFD []).inRange (machine 0xFFFD 0xFFFD []).sp ∧
    ((machine 0xFFFD 0xFFFC []).inRange (machine 0xFFFD 0xFFFC []).sp ∧ ¬(machine 0xFFFD 0xFFFC []).inRange (machine 0xFFFD 0xFFFC []).pc) ∧
    ((machine 0xFFFC 0xFFFC []).inRange (machine 0xFFFC 0xFFFC []).sp ∧ (machine 0xFFFC 0xFFFC []).inRange (machine 0xFFFC 0xFFFC []).pc) := by
  decide

theorem test_meets_JumpToItself :
    (fetching 0x10 0).status = .running ∧ (fetching 0x10 0).inRange 0 ∧ (fetching 0x10 0).inRange (0 + 4) ∧
      decodeWords OpcodeMap.reference ((fetching 0x10 0).dwordAt 0) ((fetching 0x10 0).dwordAt (0 + 4)) = some (.jmp 0) := by
  decide

/-- STRI at 0 that writes a HALT over the NOP at 4. -/
def rewriting : State := machine 0 0xFFF4 [(0, 0x0A), (0xFFF4, 4), (0xFFF8, 1)]

theorem test_meets_StoreIsSeen :
    rewriting.mem.wf ∧ rewriting.status = .running ∧ rewriting.inRange rewriting.pc ∧ rewriting.inRange (rewriting.pc + 4) ∧
      rewriting.inRange rewriting.sp ∧ rewriting.inRange (rewriting.sp + 4) ∧
      decodeWords rewriting.config.opc (rewriting.dwordAt rewriting.pc) (rewriting.dwordAt (rewriting.pc + 4)) = some .stri ∧
      rewriting.dwordAt rewriting.sp = rewriting.pc + 4 ∧
      decodeWords rewriting.config.opc (rewriting.dwordAt (rewriting.sp + 4)) 0 = some .halt := by decide

/-- A next state that has not faulted, for an instruction of each kind the statements over all instructions name. -/
theorem test_meets_OverAllInstructions :
    (after .nop State.reset).map (fun t => t.status) = some .running ∧
    (after .dupi State.reset).map (fun t => t.status) = some .running ∧
    (after (.popr 0) State.reset).map (fun t => t.status) = some .running ∧
    (after (.pushi 1) State.reset).map (fun t => t.status) = some .running := by decide

/-- A tick that faults, of each kind. -/
theorem test_meets_FaultRecords :
    ([machine 0xFFFD 0xFFFC [], fetching 0x14 0, fetching 0x03000003 0].map fun s =>
      match step s with
      | .next t => (s.status, t.status, t.faultRecord)
      | .fault _ => (s.status, s.status, none)
      | .refused _ => (s.status, s.status, none)) =
      [(.running, .faulted, some (.outOfRangeAccess 0xFFFD)), (.running, .faulted, some (.invalidOpcode 0x14 0)),
        (.running, .faulted, some (.invalidRegister 3 0))] := by decide

theorem test_meets_FaultRecords_ok :
    (fetching 0 0).status = .running ∧ ∃ t, step (fetching 0 0) = .next t ∧ t.status ≠ .faulted := ⟨by decide, _, rfl, by decide⟩

theorem test_meets_IllFormed :
    State.reset.faultRecord = none ∧ (Instr.popr 3).wellFormed = false ∧ (Instr.popr 2).wellFormed = true := by decide

theorem test_meets_RunOfAStoppedMachine :
    (State.reset.setStatus .halted).inRange (State.reset.setStatus .halted).sp ∧
    ¬((State.reset.setStatus .halted).setSp 0x10000).inRange ((State.reset.setStatus .halted).setSp 0x10000).sp ∧
    (State.reset.setStatus .faulted).status = .faulted := by decide

theorem test_meets_EncodedAs : OpcodeMap.reference.injective ∧
    OpcodeMap.reference.value .pushi = (0xFFFFFF02 : Word).extractLsb' 0 8 ∧
    OpcodeMap.reference.value .dupi = (0x06 : Word).extractLsb' 0 8 ∧
    OpcodeMap.reference.value .addi = (0x0B : Word).extractLsb' 0 8 ∧
    OpcodeMap.reference.value .subi = (0x0C : Word).extractLsb' 0 8 ∧
    OpcodeMap.reference.value .jmp = (0x10 : Word).extractLsb' 0 8 := by decide

theorem test_meets_JmpToBadTarget : State.reset.status = .running ∧ ¬State.reset.inRange 0xFFFD := by decide

theorem test_meets_Inspect :
    3 ≤ (3 : Byte).toNat ∧ State.reset.inRange 0xFFFC ∧ ¬State.reset.inRange 0xFFFD := by decide

theorem test_meets_LargerBudget : ∀ t, run 1 (fetching 1 0) ≠ .notYet t := fun _ h => nomatch h

end Sys2Proof.Tests
end

/-! The memory statements: what `MemWrite` does to each cell (20_memory.md R42) and what the image load leaves in each
cell (R47, R48). -/

namespace Sys2Proof.Machine

/-! ### The image load, cell by cell -/

/-- The load runs upwards: a cell below the address it has reached is not written again (R47). -/
theorem readByte_loadImage_of_lt (n : Nat) (m : Memory) {a k : Nat} (src : List Byte) (hk : k < a) :
    (loadImage n m a src).readByte k = m.readByte k := by
  induction src generalizing m a with
  | nil => rfl
  | cons b src ih =>
    simp only [loadImage]
    split
    · rw [ih (m.writeByte a b) (Nat.lt_succ_of_lt hk), Memory.readByte_writeByte_ne m b (Nat.ne_of_lt hk)]
    · rfl

/-- Cell `a + i` takes byte `i` of a source loaded from `a` on, and keeps its old value past the source's end (R47, R48). -/
theorem readByte_loadImage {n a i : Nat} {m : Memory} (hm : m.wf) (src : List Byte) (hi : a + i < n) :
    (loadImage n m a src).readByte (a + i) = src.getD i (m.readByte (a + i)) := by
  induction src generalizing m a i with
  | nil => rfl
  | cons b src ih =>
    have ha : a < n := by omega
    rw [loadImage, if_pos ha]
    cases i with
    | zero =>
      rw [Nat.add_zero a, readByte_loadImage_of_lt n _ src (Nat.lt_add_one a), Memory.readByte_writeByte_self hm]
      rfl
    | succ i =>
      have hstep : a + (i + 1) = a + 1 + i := by omega
      rw [hstep] at hi ⊢
      rw [ih (Memory.wf_writeByte hm a b) hi, Memory.readByte_writeByte_ne m b (by omega), List.getD_cons_succ]

/-- "The excess bytes are never read from the source" (R48): only the first `n - a` bytes matter. -/
theorem loadImage_take (n : Nat) (m : Memory) (a : Nat) (src : List Byte) :
    loadImage n m a (src.take (n - a)) = loadImage n m a src := by
  induction src generalizing m a with
  | nil => rw [List.take_nil]
  | cons b src ih =>
    by_cases ha : a < n
    · have hroom : n - a = n - (a + 1) + 1 := by omega
      rw [hroom, List.take_succ_cons, loadImage, loadImage, if_pos ha, if_pos ha, ih]
    · have hfull : n - a = 0 := by omega
      rw [hfull, List.take_zero, loadImage, loadImage, if_neg ha]

/-- `Construct` is the load into the zeroed machine (70_reset_and_hazards.md R170). -/
theorem construct_eq (c : Config) (src : List Byte) :
    construct c src = (State.zeroed c).setMem (loadImage c.memSize [] 0 src) := rfl

/-! ### The obligations -/

/-- Settles O26: the range check decides between the fault and the four cell writes, and each cell is one of the four or
outside the dword. -/
theorem memWriteStoresFourCells : Obligations.MemWriteStoresFourCells := by
  unfold Obligations.MemWriteStoresFourCells
  intro s a v
  refine ⟨memWrite_of_not_inRange v, fun hin hwf => ⟨_, memWrite_of_inRange v hin, ?_⟩⟩
  have hcell : ∀ j < 4, (s.mem.writeDword a.toNat v).readByte (a.toNat + j) = v.extractLsb' (8 * j) 8 :=
    fun _ hj => Memory.readByte_writeDword hwf a.toNat v hj
  exact ⟨hcell 0 (by decide), hcell 1 (by decide), hcell 2 (by decide), hcell 3 (by decide),
    fun _ hk => Memory.readByte_writeDword_outside s.mem v hk⟩

/-- Settles O53: the load starts from the zeroed memory at address 0, so a cell's address is its byte's index and a cell
past the end keeps 0. -/
theorem imageIsLoadedVerbatim : Obligations.ImageIsLoadedVerbatim := by
  unfold Obligations.ImageIsLoadedVerbatim
  intro c src _
  refine ⟨fun a ha => ?cells, ?excess, rfl⟩
  case cells =>
    have hload := readByte_loadImage (i := a) Memory.wf_nil src (show 0 + a < c.memSize by omega)
    rwa [Nat.zero_add, Memory.readByte_nil] at hload
  case excess =>
    rw [construct_eq, construct_eq, ← loadImage_take c.memSize [] 0 src, Nat.sub_zero]

end Sys2Proof.Machine

/-! The tick on a decodable word, and the instructions of the engine, NOP and HALT (40_engine.md R70 to R79). -/

namespace Sys2Proof.Machine

/-! ### The tick by opcode, and the two handlers -/

/-- A tick whose word has the opcode of row `m` runs that row's instruction in the state R70 leaves after the fetch. -/
theorem step_of_opcode {s : State} {m : Mnemonic} (hinj : s.config.opc.injective) (hrun : s.status = .running)
    (hin : s.inRange s.pc) (hm : s.config.opc.value m = opcodeField (s.dwordAt s.pc)) :
    step s = exec (instrOf m (s.dwordAt s.pc) (s.dwordAt (s.pc + 4))) ((s.setIr (s.dwordAt s.pc)).setPc (s.pc + 4)) :=
  step_of_fetch_ok hrun (fetchDecode_of_decodes hin (decodeWords_of_opcode hinj _ hm))

theorem exec_nop (s : State) : exec .nop s = .next s := rfl

theorem exec_halt (s : State) : exec .halt s = .next (s.setStatus .halted) := rfl

/-- A halted machine has stopped, and a tick leaves it as it is (R31, R73). -/
theorem stop_and_step_of_halted {s : State} (h : s.status = .halted) : s.stop = true ∧ step s = .next s :=
  ⟨beq_iff_eq.2 h, step_of_not_running (by rw [h]; decide)⟩

/-! ### The obligations -/

/-- Settles O14: the handler answers its own start state, so the tick is the fetch's writes of `IR` and `pc`. -/
theorem nopOnlyAdvancesPc : Obligations.NopOnlyAdvancesPc := by
  unfold Obligations.NopOnlyAdvancesPc
  intro s
  refine ⟨exec_nop s, fun hinj hrun hin hop => ?_⟩
  exact (step_of_opcode (m := .nop) hinj hrun hin hop).trans (exec_nop _)

/-- Settles O15: the handler only sets the status, and with that the machine has stopped. -/
theorem haltStopsTheMachine : Obligations.HaltStopsTheMachine := by
  unfold Obligations.HaltStopsTheMachine
  intro s
  refine ⟨exec_halt s, fun hinj hrun hin hop => ?_⟩
  have htick := (step_of_opcode (m := .halt) hinj hrun hin hop).trans (exec_halt _)
  exact ⟨_, htick, rfl, stop_and_step_of_halted rfl⟩

end Sys2Proof.Machine

/-! The stack instructions that check one dword and then push: PUSHI and DUPI (41_stack.md R84, R88). -/

namespace Sys2Proof.Machine

/-! ### Encoding, faults and the push that sets the flags -/

/-- A row is encoded as its length and the instruction it decodes to say (30_encoding.md R58, R60). -/
theorem EncodedAs.of_instrOf {m : Mnemonic} {n : Nat} {i : Word → Instr} (hlen : lengthOf m = n)
    (hi : ∀ w v, instrOf m w v = i v) : EncodedAs m n i :=
  ⟨hlen, fun _ hinj w v hop => (decodeWords_of_opcode hinj v hop).trans (congrArg some (hi w v))⟩

/-- An instruction whose handler raises a fault takes it. -/
theorem Faults.of_commit_error {i : Instr} {s : State} {f : Fault} {r : Except Fault State}
    (hexec : exec i s = commit s r) (hr : r = .error f) : Faults i s f :=
  Faults.of_takeFault (by rw [hexec, hr, commit_error])

/-- A push in range lowers `sp`, sets zero and negative from the dword and stores it, and does nothing else
(41_stack.md R80, R83). -/
theorem pushZN_stores {s : State} (v : Word) (hin : s.inRange (s.sp - 4)) (hwf : s.mem.wf) :
    ∃ m, pushZN s v = .ok { s with sp := s.sp - 4, flags := zeroNegativeOf s.flags v, mem := m } ∧
      DwordStored s.mem m (s.sp - 4) v := by
  refine ⟨_, ?_, DwordStored.of_writeDword hwf (s.sp - 4) v⟩
  rw [pushZN_of_inRange v hin, ← flagsZN_eq_zeroNegativeOf]
  rfl

/-! ### The two handlers -/

theorem exec_pushi (imm : Word) (s : State) :
    exec (.pushi imm) s = commit s (takeOperand s >>= fun t => pushZN t imm) := rfl

/-- The peek of DUPI reads the dword at `sp` itself. -/
theorem exec_dupi (s : State) : exec .dupi s = commit s (memRead s s.sp >>= pushZN s) := by
  rw [← peek_zero]
  rfl

/-- With its operand in range, PUSHI is a push from the state whose `pc` is past the operand. -/
theorem exec_pushi_of_inRange {s : State} (imm : Word) (hpc : s.inRange s.pc) :
    exec (.pushi imm) s = commit s (pushZN (s.setPc (s.pc + 4)) imm) := by
  rw [exec_pushi, takeOperand_of_inRange hpc, ok_bind]

/-- With the top in range, DUPI is a push of it. -/
theorem exec_dupi_of_inRange {s : State} (hsp : s.inRange s.sp) :
    exec .dupi s = commit s (pushZN s (s.dwordAt s.sp)) := by
  rw [exec_dupi, memRead_of_inRange hsp, ok_bind]

/-! ### The obligations -/

/-- Settles O17: the operand's check raises the first fault, the push from the state past the operand the second, and that
push does the rest. -/
theorem pushiPushesItsOperand : Obligations.PushiPushesItsOperand := by
  unfold Obligations.PushiPushesItsOperand
  refine ⟨EncodedAs.of_instrOf rfl fun _ _ => rfl, fun imm s => ⟨fun hpc => ?operandFault, fun hpc hsp => ?pushFault,
    fun hpc hsp hwf => ?pushed⟩⟩
  case operandFault =>
    exact Faults.of_commit_error (exec_pushi imm s) (by rw [takeOperand_of_not_inRange hpc, error_bind])
  case pushFault =>
    exact Faults.of_commit_error (exec_pushi_of_inRange imm hpc) (pushZN_of_not_inRange (s := s.setPc (s.pc + 4)) imm hsp)
  case pushed =>
    obtain ⟨m, hpush, hstored⟩ := pushZN_stores (s := s.setPc (s.pc + 4)) imm hsp hwf
    exact ⟨m, by rw [exec_pushi_of_inRange imm hpc, hpush]; rfl, hstored⟩

/-- Settles O21: the peek raises the first fault, the push of the dword it read the second, and that push does the rest. -/
theorem dupiCopiesTheTop : Obligations.DupiCopiesTheTop := by
  unfold Obligations.DupiCopiesTheTop
  refine ⟨EncodedAs.of_instrOf rfl fun _ _ => rfl, fun s => ⟨fun htop => ?peekFault, fun htop hbelow => ?pushFault,
    fun htop hbelow hwf => ?pushed⟩⟩
  case peekFault =>
    exact Faults.of_commit_error (exec_dupi s) (by rw [memRead_of_not_inRange htop, error_bind])
  case pushFault =>
    exact Faults.of_commit_error (exec_dupi_of_inRange htop) (pushZN_of_not_inRange _ hbelow)
  case pushed =>
    obtain ⟨m, hpush, hstored⟩ := pushZN_stores (s.dwordAt s.sp) hbelow hwf
    exact ⟨m, by rw [exec_dupi_of_inRange htop, hpush, commit_ok], hstored⟩

end Sys2Proof.Machine

/-! The arithmetic engine at every byte width (43_arith_logic.md R105, R106), and the two instructions that replace the top
two dwords by its result: ADDI and SUBI (R112, R113). -/

namespace Sys2Proof.Machine

/-! ### The engine, in the words of the rules -/

section engine
variable {n : Nat} (a b : BitVec n)

/-- `add_w` is the wrap-around sum with the flags of R105, each read off the sign bits and the unbounded sum. -/
theorem addEngine_eq : addEngine a b = (a + b,
    { zero := decide (a + b = 0), negative := (a + b).getLsbD (n - 1),
      carry := decide (a.toNat + b.toNat > 2 ^ n - 1),
      overflow := !a.getLsbD (n - 1) && !b.getLsbD (n - 1) && (a + b).getLsbD (n - 1) }) := by
  refine Prod.ext (addEngine_result a b) ((addEngine_flags a b).trans ?_)
  simp only [BitVec.msb_eq_getLsbD_last]
  rfl

/-- `sub_w` is the wrap-around difference with the flags of R106, each read off the sign bits and the unsigned order. -/
theorem subEngine_eq : subEngine a b = (a - b,
    { zero := decide (a - b = 0), negative := (a - b).getLsbD (n - 1),
      carry := decide (a.toNat < b.toNat),
      overflow := a.getLsbD (n - 1) && !b.getLsbD (n - 1) && !(a - b).getLsbD (n - 1) }) := by
  refine Prod.ext (subEngine_result a b) ((subEngine_flags a b).trans ?_)
  simp only [BitVec.msb_eq_getLsbD_last]
  rfl

/-- The wrap-around difference is the mathematical `(a - b) mod 2^n` of R106. -/
theorem toNat_sub_eq_emod : ((a - b).toNat : Int) = ((a.toNat : Int) - (b.toNat : Int)) % (2 : Int) ^ n := by
  have hne : (2 : Int) ^ n ≠ 0 := pow_ne_zero n two_ne_zero
  have hofInt : a - b = BitVec.ofInt n ((a.toNat : Int) - (b.toNat : Int)) := (subEngine_result a b).symm
  rw [hofInt, BitVec.toNat_ofInt]
  push_cast
  exact Int.toNat_of_nonneg (Int.emod_nonneg _ hne)

end engine

/-! ### The shape shared by ADDI and SUBI -/

/-- An instruction that starts with two pops takes the fault of the first pop out of range (60_exceptions.md R142). -/
theorem TwoPopFaults.of_popTwo {i : Instr} {s : State} {k : Word × Word × State → Except Fault State}
    (hexec : exec i s = commit s (popTwo s >>= k)) : TwoPopFaults i s :=
  ⟨fun h => Faults.of_commit_error hexec (by rw [popTwo_of_first_not_inRange h, error_bind]),
    fun h h' => Faults.of_commit_error hexec (by rw [popTwo_of_second_not_inRange h h', error_bind])⟩

/-- With both dwords in range, an engine instruction stores the engine's result over the second, takes all four of its flags
and raises `sp` by 4, and does nothing else (43_arith_logic.md R111, R112, R113). -/
theorem engineOp_stores (op : Word → Word → Word × Flags) {s : State} (htop : s.inRange s.sp)
    (hsecond : s.inRange (s.sp + 4)) (hwf : s.mem.wf) :
    ∃ m, engineOp op s = .ok { s with
        sp := s.sp + 4, flags := (op (s.dwordAt (s.sp + 4)) (s.dwordAt s.sp)).2, mem := m } ∧
      DwordStored s.mem m (s.sp + 4) (op (s.dwordAt (s.sp + 4)) (s.dwordAt s.sp)).1 := by
  refine ⟨_, ?_, DwordStored.of_writeDword hwf (s.sp + 4) _⟩
  rw [engineOp, popTwo_of_inRange htop hsecond, ok_bind]
  dsimp only
  rw [push_after_popTwo hsecond, ok_bind]
  rfl

theorem exec_addi (s : State) : exec .addi s = commit s (engineOp addEngine s) := rfl

theorem exec_subi (s : State) : exec .subi s = commit s (engineOp subEngine s) := rfl

/-! ### The obligations -/

/-- Settles O30: the engine's equation, clause by clause. -/
theorem addEngineResultAndFlags : Obligations.AddEngineResultAndFlags := by
  unfold Obligations.AddEngineResultAndFlags
  intro w _ a b
  refine ⟨_, _, _, _, _, addEngine_eq a b, BitVec.toNat_add a b, decide_eq_true_iff, decide_eq_true_iff, Iff.rfl,
    ?overflow⟩
  case overflow => simp only [Bool.and_eq_true, Bool.not_eq_true', and_assoc]

/-- Settles O31: the engine's equation, clause by clause, its wrap-around difference being the mathematical one. -/
theorem subEngineResultAndFlags : Obligations.SubEngineResultAndFlags := by
  unfold Obligations.SubEngineResultAndFlags
  intro w _ a b
  refine ⟨_, _, _, _, _, subEngine_eq a b, toNat_sub_eq_emod a b, decide_eq_true_iff, decide_eq_true_iff, Iff.rfl,
    ?overflow⟩
  case overflow => simp only [Bool.and_eq_true, Bool.not_eq_true', and_assoc]

/-- Settles O34: the two pops raise the faults, and what the engine shape stores is `add_4` of the two dwords; its carry,
"exceeds 2^32 - 1", is "at least 2^32" by the definition of `<`. -/
theorem addiAddsTheTopTwo : Obligations.AddiAddsTheTopTwo := by
  unfold Obligations.AddiAddsTheTopTwo
  refine ⟨EncodedAs.of_instrOf rfl fun _ _ => rfl, fun s => ⟨TwoPopFaults.of_popTwo (exec_addi s),
    fun htop hsecond hwf => ?summed⟩⟩
  case summed =>
    obtain ⟨m, hop, hstored⟩ := engineOp_stores addEngine htop hsecond hwf
    rw [addEngine_eq] at hop hstored
    exact ⟨_, _, _, m, rfl, rfl, rfl, by rw [exec_addi, hop, commit_ok]; rfl, hstored⟩

/-- Settles O35: the two pops raise the faults, and what the engine shape stores is `sub_4` of the two dwords. -/
theorem subiSubtractsTheTopFromTheSecond : Obligations.SubiSubtractsTheTopFromTheSecond := by
  unfold Obligations.SubiSubtractsTheTopFromTheSecond
  refine ⟨EncodedAs.of_instrOf rfl fun _ _ => rfl, fun s => ⟨TwoPopFaults.of_popTwo (exec_subi s),
    fun htop hsecond hwf => ?subtracted⟩⟩
  case subtracted =>
    obtain ⟨m, hop, hstored⟩ := engineOp_stores subEngine htop hsecond hwf
    rw [subEngine_eq] at hop hstored
    exact ⟨_, _, _, m, rfl, rfl, rfl, by rw [exec_subi, hop, commit_ok], hstored⟩

end Sys2Proof.Machine

/-! Control transfer: JMP checks its operand's place and never its target (44_control.md R125, R129); the fetch at the target
does (40_engine.md R70). -/

namespace Sys2Proof.Machine

/-! ### The fetch fault and the handler -/

/-- A running machine whose `pc` is out of range takes the fetch fault on its tick (40_engine.md R70, 60_exceptions.md
R142). -/
theorem TickFaults.of_pc_not_inRange {s : State} (hrun : s.status = .running) (hpc : ¬s.inRange s.pc) :
    TickFaults s (.outOfRangeAccess s.pc) :=
  ⟨_, step_of_fetch_error hrun (fetchDecode_of_not_inRange hpc), takeFault_status s _, takeFault_faultRecord s _,
    takeFault_config s _⟩

theorem exec_jmp (target : Word) (s : State) :
    exec (.jmp target) s = commit s (takeOperand s >>= fun t => pure (t.setPc target)) := rfl

/-- With its operand in range, JMP writes its target to `pc`, over the move past the operand, and does nothing else. -/
theorem exec_jmp_of_inRange {s : State} (target : Word) (hpc : s.inRange s.pc) :
    exec (.jmp target) s = .next (s.setPc target) := by
  rw [exec_jmp, takeOperand_of_inRange hpc, ok_bind, State.setPc_setPc, pure_eq_ok, commit_ok]

/-! ### The obligation -/

/-- Settles O37: the operand's check raises the handler's one fault, past it only `pc` is written, and a target out of range
is met by the next tick's fetch. -/
theorem jmpSetsPc : Obligations.JmpSetsPc := by
  unfold Obligations.JmpSetsPc
  refine ⟨EncodedAs.of_instrOf rfl fun _ _ => rfl, fun target s => ⟨fun hpc => ?operandFault, fun hpc => ?jumped,
    fun hrun htarget => ?fetchFault⟩⟩
  case operandFault =>
    exact Faults.of_commit_error (exec_jmp target s) (by rw [takeOperand_of_not_inRange hpc, error_bind])
  case jumped =>
    exact exec_jmp_of_inRange target hpc
  case fetchFault =>
    exact TickFaults.of_pc_not_inRange (s := s.setPc target) hrun htarget

end Sys2Proof.Machine

/-! What every instruction does, said once: the dwords it accesses, in order, and the state it leaves when all of them are in
range (41_stack.md to 44_control.md). The statements over single instructions and over all of them follow from `exec_of_wellFormed`
and `exec_of_illFormed`. -/

namespace Sys2Proof.Machine

/-! ### Chains of range checks -/

/-- Go on as `r` where the dword at `a` is in range; raise its fault otherwise (20_memory.md R43). -/
def check {α : Type} (s : State) (a : Word) (r : Except Fault α) : Except Fault α :=
  if s.inRange a then r else .error (.outOfRangeAccess a)

/-- `t`, unless the dword at one of the addresses `as` is out of range; the first such address is reported. -/
def checkAll (s : State) (as : List Word) (t : State) : Except Fault State := as.foldr (check s) (.ok t)

theorem check_of_inRange {α : Type} {s : State} {a : Word} (r : Except Fault α) (h : s.inRange a) : check s a r = r :=
  if_pos h

theorem check_of_not_inRange {α : Type} {s : State} {a : Word} (r : Except Fault α) (h : ¬s.inRange a) :
    check s a r = .error (.outOfRangeAccess a) := if_neg h

@[simp] theorem check_bind {α β : Type} (s : State) (a : Word) (r : Except Fault α) (k : α → Except Fault β) :
    (check s a r >>= k) = check s a (r >>= k) := by
  by_cases h : s.inRange a
  · rw [check_of_inRange r h, check_of_inRange _ h]
  · rw [check_of_not_inRange r h, check_of_not_inRange _ h, error_bind]

@[simp] theorem checkAll_cons (s t : State) (a : Word) (as : List Word) :
    checkAll s (a :: as) t = check s a (checkAll s as t) := rfl

theorem checkAll_of_inRange {s : State} {as : List Word} (t : State) (h : ∀ a ∈ as, s.inRange a) :
    checkAll s as t = .ok t := by
  induction as with
  | nil => rfl
  | cons a as ih =>
    rw [checkAll_cons, check_of_inRange _ (h a List.mem_cons_self), ih fun b hb => h b (List.mem_cons_of_mem a hb)]

/-- The fault of a chain is that of its first address out of range. -/
theorem checkAll_of_first_not_inRange {s : State} {before : List Word} {a : Word} (after : List Word) (t : State)
    (hbefore : ∀ b ∈ before, s.inRange b) (ha : ¬s.inRange a) :
    checkAll s (before ++ a :: after) t = .error (.outOfRangeAccess a) := by
  induction before with
  | nil => rw [List.nil_append, checkAll_cons, check_of_not_inRange _ ha]
  | cons b before ih =>
    rw [List.cons_append, checkAll_cons, check_of_inRange _ (hbefore b List.mem_cons_self),
      ih fun c hc => hbefore c (List.mem_cons_of_mem b hc)]

/-- A chain ends in its state with every address in range, or in the fault of an address out of range. -/
theorem checkAll_cases (s : State) (as : List Word) :
    (∀ a ∈ as, s.inRange a) ∨ ∃ a ∈ as, ¬s.inRange a ∧ ∀ t, checkAll s as t = .error (.outOfRangeAccess a) := by
  induction as with
  | nil => exact .inl fun _ h => nomatch h
  | cons a as ih =>
    by_cases ha : s.inRange a
    · rcases ih with hall | ⟨b, hb, hbr, hf⟩
      · exact .inl (List.forall_mem_cons.2 ⟨ha, hall⟩)
      · exact .inr ⟨b, List.mem_cons_of_mem a hb, hbr, fun t => by rw [checkAll_cons, check_of_inRange _ ha, hf]⟩
    · exact .inr ⟨a, List.mem_cons_self, ha, fun t => by rw [checkAll_cons, check_of_not_inRange _ ha]⟩

/-- A chain looks at nothing but the size of memory. -/
theorem checkAll_congr {s s' : State} (h : s'.config = s.config) (as : List Word) (t : State) :
    checkAll s' as t = checkAll s as t := by
  have hcheck : @check State s' = check s := by
    funext a r
    simp only [check, State.inRange, h]
  rw [checkAll, checkAll, hcheck]

/-! ### The shared operations as checks -/

/-- The dword `v` stored at `a`. -/
def stored (s : State) (a v : Word) : State := s.setMem (s.mem.writeDword a.toNat v)

/-- The dword `v` pushed. -/
def pushed (s : State) (v : Word) : State := stored (s.setSp (s.sp - 4)) (s.sp - 4) v

theorem memRead_eq_check (s : State) (a : Word) : memRead s a = check s a (.ok (s.dwordAt a)) := rfl

theorem memWrite_eq_check (s : State) (a v : Word) : memWrite s a v = check s a (.ok (stored s a v)) := rfl

theorem push_eq_check (s : State) (v : Word) : push s v = check s (s.sp - 4) (.ok (pushed s v)) := by
  simp only [push, subEngine_result, memWrite_eq_check]
  rfl

theorem pop_eq_check (s : State) : pop s = check s s.sp (.ok (s.dwordAt s.sp, s.setSp (s.sp + 4))) := by
  rw [pop, memRead_eq_check, check_bind]
  rfl

theorem takeOperand_eq_check (s : State) : takeOperand s = check s s.pc (.ok (s.setPc (s.pc + 4))) := rfl

theorem pushZN_eq_check (s : State) (v : Word) : pushZN s v = check s (s.sp - 4) (.ok (setZN (pushed s v) v)) := by
  rw [pushZN, push_eq_check, check_bind]
  rfl

theorem popTwo_eq_check (s : State) : popTwo s = check s s.sp (check s (s.sp + 4)
    (.ok (s.dwordAt (s.sp + 4), s.dwordAt s.sp, s.setSp (s.sp + 8)))) := by
  simp only [popTwo, pop_eq_check, check_bind, ok_bind, State.setSp_sp, State.setSp_setSp, add_four_add_four]
  rfl

/-! ### Accesses and effect of each instruction -/

/-- The register that the ids 0, 1 and 2 name (10_state.md R22). -/
def registerOf (regid : Byte) : RegName := if regid = 0 then .sp else if regid = 1 then .bp else .pc

/-- The addresses of the dwords an instruction reads and writes, in the order in which it checks them. -/
def accesses : Instr → State → List Word
  | .nop, _ => []
  | .halt, _ => []
  | .pushi _, s => [s.pc, s.sp - 4]
  | .pushr _, s => [s.sp - 4]
  | .popr _, s => [s.sp]
  | .dropi, s => [s.sp]
  | .dupi, s => [s.sp, s.sp - 4]
  | .overi, s => [s.sp + 4, s.sp - 4]
  | .swapi, s => [s.sp, s.sp + 4, s.sp + 4, s.sp]
  | .fchi, s => [s.sp, s.dwordAt s.sp, s.sp]
  | .stri, s => [s.sp, s.sp + 4, s.dwordAt s.sp]
  | .addi, s => [s.sp, s.sp + 4, s.sp + 4]
  | .subi, s => [s.sp, s.sp + 4, s.sp + 4]
  | .andi, s => [s.sp, s.sp + 4, s.sp + 4]
  | .ori, s => [s.sp, s.sp + 4, s.sp + 4]
  | .xori, s => [s.sp, s.sp + 4, s.sp + 4]
  | .jmp _, s => [s.pc]
  | .ifz _, s => [s.sp, s.pc]
  | .call, s => [s.sp, s.sp]
  | .ret, s => [s.sp]

/-- The top two dwords replaced by `r` (43_arith_logic.md R111). -/
def replacedTopTwo (s : State) (r : Word) : State := stored (s.setSp (s.sp + 4)) (s.sp + 4) r

/-- The top two replaced by the result of the arithmetic engine, with its four flags (R112, R113). -/
def engineEffect (op : Word → Word → Word × Flags) (s : State) : State :=
  (replacedTopTwo s (op (s.dwordAt (s.sp + 4)) (s.dwordAt s.sp)).1).setFlags (op (s.dwordAt (s.sp + 4)) (s.dwordAt s.sp)).2

/-- The top two replaced by the result of a word operation, with zero and negative from it (R114 to R116). -/
def bitwiseEffect (op : Word → Word → Word) (s : State) : State :=
  setZN (replacedTopTwo s (op (s.dwordAt (s.sp + 4)) (s.dwordAt s.sp))) (op (s.dwordAt (s.sp + 4)) (s.dwordAt s.sp))

/-- The state an instruction leaves when every dword it accesses is in range. -/
def effect : Instr → State → State
  | .nop, s => s
  | .halt, s => s.setStatus .halted
  | .pushi imm, s => setZN (pushed (s.setPc (s.pc + 4)) imm) imm
  | .pushr regid, s => setZN (pushed s (readReg s (registerOf regid))) (readReg s (registerOf regid))
  | .popr regid, s => setZN (writeReg (s.setSp (s.sp + 4)) (registerOf regid) (s.dwordAt s.sp)) (s.dwordAt s.sp)
  | .dropi, s => s.setSp (s.sp + 4)
  | .dupi, s => setZN (pushed s (s.dwordAt s.sp)) (s.dwordAt s.sp)
  | .overi, s => setZN (pushed s (s.dwordAt (s.sp + 4))) (s.dwordAt (s.sp + 4))
  | .swapi, s => setZN (stored (stored s (s.sp + 4) (s.dwordAt s.sp)) s.sp (s.dwordAt (s.sp + 4))) (s.dwordAt (s.sp + 4))
  | .fchi, s => setZN (stored s s.sp (s.dwordAt (s.dwordAt s.sp))) (s.dwordAt (s.dwordAt s.sp))
  | .stri, s => setZN (stored (s.setSp (s.sp + 8)) (s.dwordAt s.sp) (s.dwordAt (s.sp + 4))) (s.dwordAt (s.sp + 4))
  | .addi, s => engineEffect addEngine s
  | .subi, s => engineEffect subEngine s
  | .andi, s => bitwiseEffect (fun a b => a &&& b) s
  | .ori, s => bitwiseEffect (fun a b => a ||| b) s
  | .xori, s => bitwiseEffect (fun a b => a ^^^ b) s
  | .jmp target, s => s.setPc target
  | .ifz target, s => (s.setSp (s.sp + 4)).setPc (if s.dwordAt s.sp = 0 then target else s.pc + 4)
  | .call, s => (stored s s.sp s.pc).setPc (s.dwordAt s.sp)
  | .ret, s => (s.setSp (s.sp + 4)).setPc (s.dwordAt s.sp)

/-! ### Every handler is its checks and its effect -/

@[simp] theorem check_setSp {α : Type} (s : State) (v a : Word) (r : Except Fault α) :
    check (s.setSp v) a r = check s a r := rfl

theorem add_eight_sub_four (a : Word) : a + 8 - 4 = a + 4 := by bv_omega

theorem namedReg_of_named {s : State} {regid : Byte} (h : registerIdNamed regid = true) :
    namedReg s regid = .ok (registerOf regid) := by
  refine namedReg_of_some ?_
  revert regid
  decide

/-- A push after two pops replaces the top two. -/
theorem push_after_popTwo_eq_check (s : State) (v : Word) :
    push (s.setSp (s.sp + 8)) v = check s (s.sp + 4) (.ok (replacedTopTwo s v)) := by
  rw [push_eq_check, State.setSp_sp, add_eight_sub_four, check_setSp, pushed, State.setSp_sp, add_eight_sub_four]
  rfl

/-- A push after one pop writes where the pop read. -/
theorem push_after_pop_eq_check (s : State) (v : Word) :
    push (s.setSp (s.sp + 4)) v = check s s.sp (.ok (stored s s.sp v)) := by
  rw [push_eq_check, State.setSp_sp, add_four_sub_four, check_setSp, pushed, State.setSp_sp, add_four_sub_four]
  rfl

/-- A push after two pops and a push writes where the first pop read (41_stack.md R90). -/
theorem push_after_replacedTopTwo_eq_check (s : State) (v w : Word) :
    push (replacedTopTwo s v) w = check s s.sp (.ok (stored (stored s (s.sp + 4) v) s.sp w)) :=
  push_after_pop_eq_check (stored s (s.sp + 4) v) w

theorem setPc_ite (c : Prop) [Decidable c] (s : State) (v w : Word) :
    (if c then s.setPc v else s.setPc w) = s.setPc (if c then v else w) := (apply_ite s.setPc c v w).symm

theorem engineOp_eq_checkAll (op : Word → Word → Word × Flags) (s : State) :
    engineOp op s = checkAll s [s.sp, s.sp + 4, s.sp + 4] (engineEffect op s) := by
  simp only [engineOp, popTwo_eq_check, check_bind, ok_bind, push_after_popTwo_eq_check]
  rfl

theorem bitwiseOp_eq_checkAll (op : Word → Word → Word) (s : State) :
    bitwiseOp op s = checkAll s [s.sp, s.sp + 4, s.sp + 4] (bitwiseEffect op s) := by
  simp only [bitwiseOp, pushZN, popTwo_eq_check, check_bind, ok_bind, push_after_popTwo_eq_check]
  rfl

/-- A well-formed instruction checks its accesses in order and then has its effect. -/
theorem exec_of_wellFormed {i : Instr} (hi : i.wellFormed = true) (s : State) :
    exec i s = commit s (checkAll s (accesses i s) (effect i s)) := by
  cases i with
  | nop => rfl
  | halt => rfl
  | pushi imm =>
    rw [exec_pushi, takeOperand_eq_check, check_bind, ok_bind, pushZN_eq_check]
    rfl
  | pushr regid =>
    rw [exec, execPushr, namedReg_of_named hi, ok_bind, pushZN_eq_check]
    rfl
  | popr regid =>
    rw [exec, execPopr, namedReg_of_named hi, ok_bind, pop_eq_check, check_bind]
    rfl
  | dropi =>
    rw [exec, execDropi, pop_eq_check, check_bind]
    rfl
  | dupi =>
    rw [exec_dupi, memRead_eq_check, check_bind, ok_bind, pushZN_eq_check]
    rfl
  | overi =>
    rw [exec, execOveri, peek_one, memRead_eq_check, check_bind, ok_bind, pushZN_eq_check]
    rfl
  | swapi =>
    simp only [exec, execSwapi, popTwo_eq_check, check_bind, ok_bind, push_after_popTwo_eq_check, pushZN,
      push_after_replacedTopTwo_eq_check]
    rfl
  | fchi =>
    simp only [exec, execFchi, pop_eq_check, check_bind, ok_bind, memRead_eq_check, pushZN, push_after_pop_eq_check]
    rfl
  | stri =>
    simp only [exec, execStri, popTwo_eq_check, check_bind, ok_bind, memWrite_eq_check]
    rfl
  | addi => rw [exec_addi, engineOp_eq_checkAll]; rfl
  | subi => rw [exec_subi, engineOp_eq_checkAll]; rfl
  | andi => rw [exec, execAndi, bitwiseOp_eq_checkAll]; rfl
  | ori => rw [exec, execOri, bitwiseOp_eq_checkAll]; rfl
  | xori => rw [exec, execXori, bitwiseOp_eq_checkAll]; rfl
  | jmp target =>
    rw [exec_jmp, takeOperand_eq_check, check_bind]
    rfl
  | ifz target =>
    simp only [exec, execIfz, pop_eq_check, check_bind, ok_bind, takeOperand_eq_check, State.setPc_setPc, setPc_ite]
    rfl
  | call =>
    simp only [exec, execCall, pop_eq_check, check_bind, ok_bind, State.setSp_pc, push_after_pop_eq_check]
    rfl
  | ret =>
    rw [exec, execRet, pop_eq_check, check_bind]
    rfl

end Sys2Proof.Machine

/-! What follows from an instruction's accesses and effect: the three ways it can go, and what no effect touches
(60_exceptions.md R140 to R145). -/

namespace Sys2Proof.Machine

/-! ### Everything an instruction can do -/

theorem exec_of_inRange {i : Instr} {s : State} (hi : i.wellFormed = true) (hin : ∀ a ∈ accesses i s, s.inRange a) :
    exec i s = .next (effect i s) := by
  rw [exec_of_wellFormed hi, checkAll_of_inRange _ hin, commit_ok]

/-- An instruction takes the fault of the first dword out of range among those it accesses (60_exceptions.md R142, R145). -/
theorem Faults.of_access {i : Instr} {s : State} {before after : List Word} {a : Word} (hi : i.wellFormed = true)
    (hacc : accesses i s = before ++ a :: after) (hbefore : ∀ b ∈ before, s.inRange b) (ha : ¬s.inRange a) :
    Faults i s (.outOfRangeAccess a) :=
  Faults.of_commit_error (exec_of_wellFormed hi s) (by rw [hacc, checkAll_of_first_not_inRange after _ hbefore ha])

theorem PopFaults.of_access {i : Instr} {s : State} {after : List Word} (hi : i.wellFormed = true)
    (hacc : accesses i s = s.sp :: after) : PopFaults i s :=
  Faults.of_access (before := []) hi hacc (List.forall_mem_nil _)

theorem TwoPopFaults.of_access {i : Instr} {s : State} {after : List Word} (hi : i.wellFormed = true)
    (hacc : accesses i s = s.sp :: (s.sp + 4) :: after) : TwoPopFaults i s :=
  ⟨PopFaults.of_access hi hacc, fun h => Faults.of_access (before := [s.sp]) hi hacc (List.forall_mem_singleton.2 h)⟩

theorem registerIdNamed_eq_false {regid : Byte} : registerIdNamed regid = false ↔ 3 ≤ regid.toNat := by
  simp only [registerIdNamed, decide_eq_false_iff_not, not_le, Nat.succ_le_iff]

theorem namedReg_of_not_named {s : State} {regid : Byte} (h : 3 ≤ regid.toNat) :
    namedReg s regid = .error (.invalidRegister regid s.offset) := namedReg_of_none (regOfId_eq_none h)

theorem exec_pushr_of_not_named {regid : Byte} (s : State) (h : 3 ≤ regid.toNat) :
    exec (.pushr regid) s = .next (takeFault s (.invalidRegister regid s.offset)) := by
  rw [exec, execPushr, namedReg_of_not_named h, error_bind, commit_error]

theorem exec_popr_of_not_named {regid : Byte} (s : State) (h : 3 ≤ regid.toNat) :
    exec (.popr regid) s = .next (takeFault s (.invalidRegister regid s.offset)) := by
  rw [exec, execPopr, namedReg_of_not_named h, error_bind, commit_error]

/-- An ill-formed instruction is a PUSHR or POPR with an id that names no register, and takes the fault of that id. -/
theorem exec_of_illFormed {i : Instr} (hi : i.wellFormed = false) (s : State) :
    ∃ regid, (i = .pushr regid ∨ i = .popr regid) ∧ 3 ≤ regid.toNat ∧
      exec i s = .next (takeFault s (.invalidRegister regid s.offset)) := by
  cases i with
  | pushr regid =>
    have hid := registerIdNamed_eq_false.1 hi
    exact ⟨regid, .inl rfl, hid, exec_pushr_of_not_named s hid⟩
  | popr regid =>
    have hid := registerIdNamed_eq_false.1 hi
    exact ⟨regid, .inr rfl, hid, exec_popr_of_not_named s hid⟩
  | _ => cases hi

/-- An instruction has its effect, or takes the fault of a dword out of range, or that of a register id. -/
theorem exec_cases {i : Instr} {s t : State} (h : exec i s = .next t) :
    (i.wellFormed = true ∧ (∀ a ∈ accesses i s, s.inRange a) ∧ t = effect i s) ∨
    (i.wellFormed = true ∧ ∃ a, ¬s.inRange a ∧ t = takeFault s (.outOfRangeAccess a)) ∨
    (i.wellFormed = false ∧ ∃ regid, (i = .pushr regid ∨ i = .popr regid) ∧ 3 ≤ regid.toNat ∧
      t = takeFault s (.invalidRegister regid s.offset)) := by
  cases hi : i.wellFormed with
  | false =>
    obtain ⟨regid, hreg, hid, hexec⟩ := exec_of_illFormed hi s
    rw [h] at hexec
    exact .inr (.inr ⟨rfl, regid, hreg, hid, Host.Outcome.next.inj hexec⟩)
  | true =>
    rcases checkAll_cases s (accesses i s) with hin | ⟨a, -, ha, hfault⟩
    · rw [exec_of_inRange hi hin] at h
      exact .inl ⟨rfl, hin, (Host.Outcome.next.inj h).symm⟩
    · rw [exec_of_wellFormed hi, hfault, commit_error] at h
      exact .inr (.inl ⟨rfl, a, ha, (Host.Outcome.next.inj h).symm⟩)

/-- Where an instruction does not fault it has its effect. -/
theorem eq_effect_of_not_faulted {i : Instr} {s t : State} (h : exec i s = .next t) (ht : t.status ≠ .faulted) :
    i.wellFormed = true ∧ t = effect i s := by
  rcases exec_cases h with ⟨hi, -, rfl⟩ | ⟨-, a, -, rfl⟩ | ⟨-, regid, -, -, rfl⟩
  · exact ⟨hi, rfl⟩
  · exact absurd rfl ht
  · exact absurd rfl ht

/-! ### What no effect touches -/

@[simp] theorem effect_config (i : Instr) (s : State) : (effect i s).config = s.config := by
  cases i with
  | popr regid => exact writeReg_config _ _ _
  | _ => rfl

@[simp] theorem effect_faultRecord (i : Instr) (s : State) : (effect i s).faultRecord = s.faultRecord := by
  cases i with
  | popr regid => exact writeReg_faultRecord _ _ _
  | _ => rfl

theorem effect_halt_status (s : State) : (effect .halt s).status = .halted := rfl

theorem effect_status {i : Instr} (s : State) (hi : i ≠ .halt) : (effect i s).status = s.status := by
  cases i with
  | halt => exact absurd rfl hi
  | popr regid => exact writeReg_status _ _ _
  | _ => rfl

theorem effect_not_faulted (i : Instr) {s : State} (hrun : s.status = .running) : (effect i s).status ≠ .faulted := by
  by_cases hi : i = .halt
  · rw [hi, effect_halt_status]; decide
  · rw [effect_status s hi, hrun]; decide

/-- An effect writes memory only by dword stores at addresses the instruction accesses: what each such store keeps, it keeps. -/
theorem effect_mem_keeps {P : Memory → Prop} {i : Instr} {s : State} (h : P s.mem)
    (hstore : ∀ m, ∀ a ∈ accesses i s, ∀ v, P m → P (m.writeDword a.toNat v)) : P (effect i s).mem := by
  cases i with
  | nop | halt | dropi | jmp | ifz | ret => exact h
  | popr regid => exact (writeReg_mem (s.setSp (s.sp + 4)) (registerOf regid) (s.dwordAt s.sp)).symm ▸ h
  | swapi => exact hstore _ _ (by simp [accesses]) _ (hstore _ _ (by simp [accesses]) _ h)
  | _ => exact hstore _ _ (by simp [accesses]) _ h

end Sys2Proof.Machine

/-! The tick and the invariant (40_engine.md R70, R73, 20_memory.md R40): the three ways a running machine's tick can go, and
what every one of them keeps. -/

namespace Sys2Proof.Machine

/-! ### The three ways of a tick -/

theorem step_of_not_inRange {s : State} (hrun : s.status = .running) (hpc : ¬s.inRange s.pc) :
    step s = .next (takeFault s (.outOfRangeAccess s.pc)) :=
  step_of_fetch_error hrun (fetchDecode_of_not_inRange hpc)

theorem step_of_invalid {s : State} (hrun : s.status = .running) (hpc : s.inRange s.pc)
    (hd : decodeWords s.config.opc (s.dwordAt s.pc) (s.dwordAt (s.pc + 4)) = none) :
    step s = .next (takeFault s (.invalidOpcode (opcodeField (s.dwordAt s.pc)) s.pc)) :=
  step_of_fetch_error hrun (fetchDecode_of_invalid hpc hd)

/-- The state in which the handler starts: `IR` holds the word, `pc` is past it (R70). -/
def fetched (s : State) : State := (s.setIr (s.dwordAt s.pc)).setPc (s.pc + 4)

theorem step_of_decodes {s : State} {i : Instr} (hrun : s.status = .running) (hpc : s.inRange s.pc)
    (hd : decodeWords s.config.opc (s.dwordAt s.pc) (s.dwordAt (s.pc + 4)) = some i) : step s = exec i (fetched s) :=
  step_of_fetch_ok hrun (fetchDecode_of_decodes hpc hd)

/-- A running machine's word is out of range, is no instruction, or is one. -/
theorem fetch_cases (s : State) : ¬s.inRange s.pc ∨
    (s.inRange s.pc ∧ decodeWords s.config.opc (s.dwordAt s.pc) (s.dwordAt (s.pc + 4)) = none) ∨
    ∃ i, s.inRange s.pc ∧ decodeWords s.config.opc (s.dwordAt s.pc) (s.dwordAt (s.pc + 4)) = some i := by
  by_cases hpc : s.inRange s.pc
  · cases hd : decodeWords s.config.opc (s.dwordAt s.pc) (s.dwordAt (s.pc + 4)) with
    | none => exact .inr (.inl ⟨hpc, rfl⟩)
    | some i => exact .inr (.inr ⟨i, hpc, rfl⟩)
  · exact .inl hpc

/-! ### The invariant -/

/-- The machine a fault leaves satisfies the invariant: its free memory has as many cells as the machine (R140). -/
theorem takeFault_inv {s : State} (f : Fault) (hc : s.config.wf) : (takeFault s f).inv :=
  ⟨hc, takeFault_mem_wf s f, takeFault_mem_below s f, iff_of_true rfl rfl⟩

/-- Running an instruction keeps the invariant: its stores are in range, and it leaves the fault record empty. -/
theorem exec_keeps_inv {i : Instr} {s t : State} (hs : s.inv) (hrun : s.status = .running) (h : exec i s = .next t) :
    t.inv := by
  obtain ⟨hc, hwf, hbelow, hrec⟩ := hs
  rcases exec_cases h with ⟨-, hin, rfl⟩ | ⟨-, a, -, rfl⟩ | ⟨-, regid, -, -, rfl⟩
  case inl =>
    have hempty : ¬(effect i s).faultRecord.isSome := by
      rw [effect_faultRecord, hrec, hrun]; decide
    refine ⟨by rwa [effect_config], ?wf, ?below, iff_of_false hempty (effect_not_faulted i hrun)⟩
    case wf => exact effect_mem_keeps hwf fun m a _ v hm => Memory.wf_writeDword hm a.toNat v
    case below =>
      rw [effect_config]
      exact effect_mem_keeps (P := (·.below s.config.memSize)) hbelow
        fun m a ha v hm => Memory.below_writeDword hm (hin a ha) v
  case inr.inl => exact takeFault_inv _ hc
  case inr.inr => exact takeFault_inv _ hc

/-- Settles O10: a tick changes nothing, takes a fault of its own, or runs an instruction from the fetched state, which
satisfies the invariant as `s` does. -/
theorem stepKeepsInvariant : Obligations.StepKeepsInvariant := by
  unfold Obligations.StepKeepsInvariant
  intro s t hs hstep
  by_cases hrun : s.status = .running
  · rcases fetch_cases s with hpc | ⟨hpc, hd⟩ | ⟨i, hpc, hd⟩
    · cases (step_of_not_inRange hrun hpc).symm.trans hstep
      exact takeFault_inv _ hs.1
    · cases (step_of_invalid hrun hpc hd).symm.trans hstep
      exact takeFault_inv _ hs.1
    · exact exec_keeps_inv (s := fetched s) hs hrun ((step_of_decodes hrun hpc hd).symm.trans hstep)
  · cases (step_of_not_running hrun).symm.trans hstep
    exact hs

/-! ### Machines that differ in flags only -/

/-- `u` has the status and the fault record of `t` and, unless they have faulted, differs from it in flags only. -/
def SameButFlags (t u : State) : Prop :=
  u.status = t.status ∧ u.faultRecord = t.faultRecord ∧ (t.status ≠ .faulted → u = t.setFlags u.flags)

theorem SameButFlags.of_setFlags (t : State) (f : Flags) : SameButFlags t (t.setFlags f) := ⟨rfl, rfl, fun _ => rfl⟩

theorem SameButFlags.of_takeFault (s s' : State) (f : Fault) : SameButFlags (takeFault s f) (takeFault s' f) :=
  ⟨rfl, rfl, fun h => absurd rfl h⟩

theorem accesses_setFlags (i : Instr) (s : State) (f : Flags) : accesses i (s.setFlags f) = accesses i s := by
  cases i <;> rfl

/-- No effect depends on a flag, but for flags. -/
theorem effect_setFlags (i : Instr) (s : State) (f : Flags) :
    effect i (s.setFlags f) = (effect i s).setFlags (effect i (s.setFlags f)).flags := by
  cases i with
  | pushr regid => simp only [effect]; cases registerOf regid <;> rfl
  | popr regid => simp only [effect]; cases registerOf regid <;> rfl
  | _ => rfl

/-- An instruction takes the same course whatever the flags are. -/
theorem exec_setFlags (i : Instr) (s : State) (f : Flags) :
    ∃ t u, exec i s = .next t ∧ exec i (s.setFlags f) = .next u ∧ SameButFlags t u := by
  cases hi : i.wellFormed with
  | false =>
    obtain ⟨regid, hreg, hid, -⟩ := exec_of_illFormed hi s
    rcases hreg with rfl | rfl
    · exact ⟨_, _, exec_pushr_of_not_named s hid, exec_pushr_of_not_named _ hid, .of_takeFault ..⟩
    · exact ⟨_, _, exec_popr_of_not_named s hid, exec_popr_of_not_named _ hid, .of_takeFault ..⟩
  | true =>
    have hflags : exec i (s.setFlags f) =
        commit (s.setFlags f) (checkAll s (accesses i s) (effect i (s.setFlags f))) := by
      rw [exec_of_wellFormed hi, accesses_setFlags, checkAll_congr (State.setFlags_config s f)]
    rcases checkAll_cases s (accesses i s) with hin | ⟨a, -, -, hfault⟩
    · rw [checkAll_of_inRange _ hin, commit_ok, effect_setFlags] at hflags
      exact ⟨_, _, exec_of_inRange hi hin, hflags, .of_setFlags ..⟩
    · rw [hfault, commit_error] at hflags
      exact ⟨_, _, by rw [exec_of_wellFormed hi, hfault, commit_error], hflags, .of_takeFault ..⟩

/-- Settles O45: fetch and decode look at no flag, and neither does the instruction they give. -/
theorem noInstructionReadsAFlag : Obligations.NoInstructionReadsAFlag := by
  unfold Obligations.NoInstructionReadsAFlag
  intro s f
  change ∃ t u, step s = .next t ∧ step (s.setFlags f) = .next u ∧ SameButFlags t u
  by_cases hrun : s.status = .running
  · rcases fetch_cases s with hpc | ⟨hpc, hd⟩ | ⟨i, hpc, hd⟩
    · exact ⟨_, _, step_of_not_inRange hrun hpc, step_of_not_inRange (s := s.setFlags f) hrun hpc, .of_takeFault ..⟩
    · exact ⟨_, _, step_of_invalid hrun hpc hd, step_of_invalid (s := s.setFlags f) hrun hpc hd, .of_takeFault ..⟩
    · rw [step_of_decodes hrun hpc hd, step_of_decodes (s := s.setFlags f) hrun hpc hd]
      exact exec_setFlags i (fetched s) f
  · exact ⟨_, _, step_of_not_running hrun, step_of_not_running (s := s.setFlags f) hrun, .of_setFlags ..⟩

end Sys2Proof.Machine

/-! Encoding and decoding (30_encoding.md R56 to R68), and what the tick does with a decoded word (40_engine.md R70). -/

namespace Sys2Proof

/-! ### Fields of encoded words -/

/-- The low byte of an append is the byte appended. -/
theorem lowByte_append {n : Nat} (hi : BitVec n) (lo : Byte) : (hi ++ lo).extractLsb' 0 8 = lo :=
  (BitVec.extractLsb'_append_eq_of_add_le (by decide)).trans BitVec.extractLsb'_eq_self

/-- A byte above an appended one is a byte of what it was appended to. -/
theorem highByte_append {n : Nat} (k : Nat) (hi : BitVec n) (lo : Byte) :
    (hi ++ lo).extractLsb' (8 + k) 8 = hi.extractLsb' k 8 := by
  rw [BitVec.extractLsb'_append_eq_of_le (Nat.le_add_right 8 k), Nat.add_sub_cancel_left]

/-- Byte `k` of four cells put together is cell `k` (20_memory.md R41, R42). -/
theorem dwordByte_dwordOfBytes (b0 b1 b2 b3 : Byte) :
    dwordByte (dwordOfBytes b0 b1 b2 b3) 0 = b0 ∧ dwordByte (dwordOfBytes b0 b1 b2 b3) 1 = b1 ∧
    dwordByte (dwordOfBytes b0 b1 b2 b3) 2 = b2 ∧ dwordByte (dwordOfBytes b0 b1 b2 b3) 3 = b3 := by
  have h1 (k : Nat) := highByte_append k (b3 ++ b2 ++ b1) b0
  have h2 (k : Nat) := highByte_append k (b3 ++ b2) b1
  exact ⟨lowByte_append _ b0, (h1 0).trans (lowByte_append _ b1), (h1 8).trans ((h2 0).trans (lowByte_append _ b2)),
    (h1 16).trans ((h2 8).trans ((highByte_append 0 b3 b2).trans BitVec.extractLsb'_eq_self))⟩

theorem opcodeField_wordZero (opc : OpcodeMap) (m : Mnemonic) (hi : Byte) :
    opcodeField (wordZero opc m hi) = opc.value m := Laws.dwordByte_zero_wordZero opc m hi

theorem regidField_wordZero (opc : OpcodeMap) (m : Mnemonic) (hi : Byte) : regidField (wordZero opc m hi) = hi :=
  (dwordByte_dwordOfBytes _ _ _ _).2.2.2

/-! ### Decoding the bytes of words -/

/-- One word of a row without operand decodes to the row's instruction. -/
theorem decode_dwordBytes {opc : OpcodeMap} {m : Mnemonic} {w : Word} (hm : mnemonicOf opc (opcodeField w) = some m)
    (hfmt : formatOf m ≠ .fi) (rest : List Byte) :
    decode opc (dwordBytes w ++ rest) = .instr (instrOf m w 0) rest := by
  simp only [dwordBytes, List.cons_append, List.nil_append, decode, Machine.dwordOfBytes_dwordByte, hm]
  cases hf : formatOf m with
  | f0 => rfl
  | fr => rfl
  | fi => exact absurd hf hfmt

/-- Two words of a row with an operand decode to the row's instruction with the second word as its operand. -/
theorem decode_dwordBytes_dwordBytes {opc : OpcodeMap} {m : Mnemonic} {w : Word}
    (hm : mnemonicOf opc (opcodeField w) = some m) (hfmt : formatOf m = .fi) (v : Word) (rest : List Byte) :
    decode opc (dwordBytes w ++ (dwordBytes v ++ rest)) = .instr (instrOf m w v) rest := by
  simp only [dwordBytes, List.cons_append, List.nil_append, decode, Machine.dwordOfBytes_dwordByte, hm, hfmt]

section roundTrip
variable {opc : OpcodeMap} (hopc : opc.injective) {i : Instr} (rest : List Byte)
include hopc

theorem mnemonicOf_wordZero (m : Mnemonic) (hi : Byte) :
    mnemonicOf opc (opcodeField (wordZero opc m hi)) = some m :=
  (mnemonicOf_eq_some hopc).2 (opcodeField_wordZero opc m hi).symm

theorem decode_encodeBytes_of_word {hi : Byte} (he : encode opc i = [wordZero opc i.mnemonic hi])
    (hfmt : formatOf i.mnemonic ≠ .fi) (hi' : instrOf i.mnemonic (wordZero opc i.mnemonic hi) 0 = i) :
    decode opc (encodeBytes opc i ++ rest) = .instr i rest := by
  rw [encodeBytes, he, List.flatMap_singleton, decode_dwordBytes (mnemonicOf_wordZero hopc _ _) hfmt, hi']

theorem decode_encodeBytes_of_words {v : Word} (he : encode opc i = [wordZero opc i.mnemonic 0, v])
    (hfmt : formatOf i.mnemonic = .fi) (hi' : instrOf i.mnemonic (wordZero opc i.mnemonic 0) v = i) :
    decode opc (encodeBytes opc i ++ rest) = .instr i rest := by
  rw [encodeBytes, he, List.flatMap_cons, List.flatMap_singleton, List.append_assoc,
    decode_dwordBytes_dwordBytes (mnemonicOf_wordZero hopc _ _) hfmt, hi']

end roundTrip

/-- Settles O1: by the format of the row; the one operand an encoded word carries is its register id. -/
theorem decodeOfEncodeGivesTheInstruction : Obligations.DecodeOfEncodeGivesTheInstruction := by
  unfold Obligations.DecodeOfEncodeGivesTheInstruction
  intro opc hopc i rest
  cases i with
  | pushi | jmp | ifz => exact decode_encodeBytes_of_words hopc rest rfl rfl rfl
  | pushr regid =>
    exact decode_encodeBytes_of_word hopc rest rfl nofun (congrArg Instr.pushr (regidField_wordZero opc .pushr regid))
  | popr regid =>
    exact decode_encodeBytes_of_word hopc rest rfl nofun (congrArg Instr.popr (regidField_wordZero opc .popr regid))
  | _ => exact decode_encodeBytes_of_word hopc rest rfl (by decide) rfl

/-! ### What a decoded word says -/

/-- A word decodes to the instruction of the row its low byte selects, and to nothing else (R60). -/
theorem decodeWords_eq_some_iff {opc : OpcodeMap} {w w1 : Word} {i : Instr} :
    decodeWords opc w w1 = some i ↔ ∃ m, mnemonicOf opc (opcodeField w) = some m ∧ instrOf m w w1 = i :=
  Option.map_eq_some_iff

theorem decodeWords_eq_none_iff {opc : OpcodeMap} {w w1 : Word} :
    decodeWords opc w w1 = none ↔ ∀ m, opc.value m ≠ opcodeField w :=
  Option.map_eq_none_iff.trans mnemonicOf_eq_none

/-- The top byte of the word reaches only PUSHR and POPR (R63). -/
theorem instrOf_congr_word {m : Mnemonic} (w w' w1 : Word) (hpushr : m ≠ .pushr) (hpopr : m ≠ .popr) :
    instrOf m w w1 = instrOf m w' w1 := by
  cases m with
  | pushr => exact absurd rfl hpushr
  | popr => exact absurd rfl hpopr
  | _ => rfl

/-- The dword after the word reaches only PUSHI, JMP and IF (R64). -/
theorem instrOf_congr_operand {m : Mnemonic} (w w1 w1' : Word) (hpushi : m ≠ .pushi) (hjmp : m ≠ .jmp)
    (hifz : m ≠ .ifz) : instrOf m w w1 = instrOf m w w1' := by
  cases m with
  | pushi => exact absurd rfl hpushi
  | jmp => exact absurd rfl hjmp
  | ifz => exact absurd rfl hifz
  | _ => rfl

/-- Two words with the same top byte give the same instruction of a row. -/
theorem instrOf_congr_regid (m : Mnemonic) {w w' : Word} (w1 : Word) (h : regidField w = regidField w') :
    instrOf m w w1 = instrOf m w' w1 := by
  cases m with
  | pushr => exact congrArg Instr.pushr h
  | popr => exact congrArg Instr.popr h
  | _ => rfl

/-- The register id of a decoded PUSHR or POPR is bits 31:24 of the word (R63). -/
theorem regid_of_decodeWords {opc : OpcodeMap} {w w1 : Word} {i : Instr} {regid : Byte}
    (hd : decodeWords opc w w1 = some i) (hi : i = .pushr regid ∨ i = .popr regid) : regid = regidField w := by
  obtain ⟨m, -, rfl⟩ := decodeWords_eq_some_iff.1 hd
  rcases hi with hi | hi
  · obtain rfl : m = .pushr := by rw [← instrOf_mnemonic m w w1, hi]; rfl
    exact (Instr.pushr.inj hi).symm
  · obtain rfl : m = .popr := by rw [← instrOf_mnemonic m w w1, hi]; rfl
    exact (Instr.popr.inj hi).symm

/-! ### The obligations on encoding -/

/-- Settles O3: the row lookup is exact, and the instruction of a row belongs to that row. -/
theorem lowByteAloneSelectsTheInstruction : Obligations.LowByteAloneSelectsTheInstruction := by
  unfold Obligations.LowByteAloneSelectsTheInstruction
  intro opc hopc w w1
  refine ⟨fun m => ⟨fun hm => ⟨_, decodeWords_of_opcode hopc w1 hm, instrOf_mnemonic m w w1⟩, ?_⟩,
    decodeWords_eq_none_iff⟩
  rintro ⟨i, hd, rfl⟩
  obtain ⟨m, hm, rfl⟩ := decodeWords_eq_some_iff.1 hd
  rw [instrOf_mnemonic]
  exact (mnemonicOf_eq_some hopc).1 hm

/-- Settles O4: equal low bytes select the same row, and each row reads only its own operand. -/
theorem unusedBitsDoNotTakePartInDecoding : Obligations.UnusedBitsDoNotTakePartInDecoding := by
  unfold Obligations.UnusedBitsDoNotTakePartInDecoding
  intro opc w w' w1 w1' hlow
  have hrow : mnemonicOf opc (opcodeField w) = mnemonicOf opc (opcodeField w') := congrArg (mnemonicOf opc) hlow
  refine ⟨fun htop => ?topByte, fun i hd hpushr hpopr => ?word, fun i hd hpushi hjmp hifz => ?operand⟩
  case topByte =>
    rw [decodeWords, decodeWords, hrow, funext fun m => instrOf_congr_regid m w1 htop]
  case word =>
    obtain ⟨m, hm, rfl⟩ := decodeWords_eq_some_iff.1 hd
    rw [instrOf_mnemonic] at hpushr hpopr
    exact decodeWords_eq_some_iff.2 ⟨m, hrow ▸ hm, instrOf_congr_word w' w w1 hpushr hpopr⟩
  case operand =>
    obtain ⟨m, hm, rfl⟩ := decodeWords_eq_some_iff.1 hd
    rw [instrOf_mnemonic] at hpushi hjmp hifz
    exact decodeWords_eq_some_iff.2 ⟨m, hm, instrOf_congr_operand w w1' w1 hpushi hjmp hifz⟩

/-- A word whose low byte is no opcode is an invalid opcode, whatever follows (R61). -/
theorem decode_of_invalid {opc : OpcodeMap} {b0 : Byte} (h : ∀ m, opc.value m ≠ b0) (b1 b2 b3 : Byte)
    (rest : List Byte) : decode opc (b0 :: b1 :: b2 :: b3 :: rest) = .invalidOpcode b0 := by
  have hop : opcodeField (dwordOfBytes b0 b1 b2 b3) = b0 := (dwordByte_dwordOfBytes b0 b1 b2 b3).1
  simp only [decode, hop, mnemonicOf_eq_none.2 h]

/-- Settles O2: the fixed words by evaluation, the byte 0xFF because no row of the reference table has it. -/
theorem referenceEncodingExamples : Obligations.ReferenceEncodingExamples := by
  unfold Obligations.ReferenceEncodingExamples
  have hff : ∀ m, OpcodeMap.reference.value m ≠ 0xFF := fun m => by cases m <;> decide
  exact ⟨by decide, by decide, by decide, by decide, decode_of_invalid hff, by decide, by decide, by decide⟩

end Sys2Proof

namespace Sys2Proof.Machine

/-! ### The obligations on the tick -/

/-- Settles O5: the fetch gives that instruction and that state. -/
theorem stepRunsTheDecodedInstruction : Obligations.StepRunsTheDecodedInstruction := by
  unfold Obligations.StepRunsTheDecodedInstruction
  intro s i hrun hpc hd
  exact step_of_decodes hrun hpc hd

/-- Settles O6: the row's instruction carries the operand the decoder read, row by row. -/
theorem operandsComeFromTheirPlaces : Obligations.OperandsComeFromTheirPlaces := by
  unfold Obligations.OperandsComeFromTheirPlaces
  intro s hopc hrun hpc
  exact ⟨step_of_opcode (m := .pushi) hopc hrun hpc, step_of_opcode (m := .jmp) hopc hrun hpc,
    step_of_opcode (m := .ifz) hopc hrun hpc, step_of_opcode (m := .pushr) hopc hrun hpc,
    step_of_opcode (m := .popr) hopc hrun hpc⟩

/-- A tick that ends in a taken fault takes it. -/
theorem TickFaults.of_takeFault {s : State} {f : Fault} (h : step s = .next (takeFault s f)) : TickFaults s f :=
  ⟨_, h, takeFault_status s f, takeFault_faultRecord s f, takeFault_config s f⟩

/-- Settles O7: the fetch is checked before its word is looked at. -/
theorem tickFaultsOnFetchThenOpcode : Obligations.TickFaultsOnFetchThenOpcode := by
  unfold Obligations.TickFaultsOnFetchThenOpcode
  intro s hrun
  exact ⟨TickFaults.of_pc_not_inRange hrun,
    fun hpc hop => TickFaults.of_takeFault (step_of_invalid hrun hpc (decodeWords_eq_none_iff.2 hop))⟩

/-- Settles O8: a machine that is not running does not change, and `Tick` returns a fault only from a running one. -/
theorem tickOfAStoppedMachineIsANoOp : Obligations.TickOfAStoppedMachineIsANoOp := by
  unfold Obligations.TickOfAStoppedMachineIsANoOp
  intro s hs
  have hstep : step s = .next s := step_of_not_running (by rcases hs with hs | hs <;> rw [hs] <;> decide)
  refine ⟨hstep, ?_⟩
  rcases hs with hs | hs <;> simp only [tick, hstep, tickResult, hs]

end Sys2Proof.Machine

/-! Single instructions: each statement is the instruction's accesses and its effect, written out (41_stack.md to
44_control.md). -/

namespace Sys2Proof.Machine

/-! ### Accesses in range, and effects in the words of the rules -/

theorem inRange_two {s : State} {a b : Word} (ha : s.inRange a) (hb : s.inRange b) : ∀ x ∈ [a, b], s.inRange x :=
  List.forall_mem_cons.2 ⟨ha, List.forall_mem_singleton.2 hb⟩

theorem inRange_three {s : State} {a b c : Word} (ha : s.inRange a) (hb : s.inRange b) (hc : s.inRange c) :
    ∀ x ∈ [a, b, c], s.inRange x :=
  List.forall_mem_cons.2 ⟨ha, inRange_two hb hc⟩

theorem setZN_eq (s : State) (v : Word) : setZN s v = s.setFlags (zeroNegativeOf s.flags v) := by
  rw [setZN, flagsZN_eq_zeroNegativeOf]

theorem stored_dword {s : State} (hwf : s.mem.wf) (a v : Word) : DwordStored s.mem (stored s a v).mem a v :=
  DwordStored.of_writeDword hwf a v

theorem registerIdNamed_of_lt {regid : Byte} (h : regid.toNat < 3) : registerIdNamed regid = true :=
  decide_eq_true (Nat.le_of_lt_succ h)

theorem readReg_registerOf (s : State) (regid : Byte) :
    readReg s (registerOf regid) = if regid = 0 then s.sp else if regid = 1 then s.bp else s.pc := by
  unfold registerOf
  split_ifs <;> rfl

/-- The offset of an instruction that names no register is the address of its word. -/
theorem Faults.of_not_named {i : Instr} {s : State} {regid : Byte}
    (h : exec i s = .next (takeFault s (.invalidRegister regid s.offset))) :
    Faults i s (.invalidRegister regid (s.pc - 4)) := Faults.of_takeFault h

/-! ### Stack and register transfer -/

/-- Settles O18: the id is looked up first, and a named register is pushed as a dword is. -/
theorem pushrPushesTheNamedRegister : Obligations.PushrPushesTheNamedRegister := by
  unfold Obligations.PushrPushesTheNamedRegister
  refine fun regid s => ⟨fun hid => ?unnamed, fun hid hpush => ?pushFault, fun hid hpush hwf => ?pushed⟩
  case unnamed => exact Faults.of_not_named (exec_pushr_of_not_named s hid)
  case pushFault =>
    exact Faults.of_access (before := []) (registerIdNamed_of_lt hid) rfl (List.forall_mem_nil _) hpush
  case pushed =>
    refine ⟨_, _, readReg_registerOf s regid, ?_, stored_dword (s := s.setSp (s.sp - 4)) hwf (s.sp - 4) _⟩
    rw [exec_of_inRange (i := .pushr regid) (registerIdNamed_of_lt hid) (List.forall_mem_singleton.2 hpush), effect, setZN_eq]
    rfl

/-- With the top in range, a named register takes it, after `sp` is raised. -/
theorem exec_popr_of_inRange {regid : Byte} {s : State} (hid : registerIdNamed regid = true) (hsp : s.inRange s.sp) :
    exec (.popr regid) s = .next ((writeReg (s.setSp (s.sp + 4)) (registerOf regid) (s.dwordAt s.sp)).setFlags
      (zeroNegativeOf s.flags (s.dwordAt s.sp))) := by
  rw [exec_of_inRange (i := .popr regid) hid (List.forall_mem_singleton.2 hsp), effect, setZN_eq, writeReg_flags,
    State.setSp_flags]

/-- Settles O19: the id is looked up first, then the dword is popped, then it is written to the register it names. -/
theorem poprWritesTheNamedRegister : Obligations.PoprWritesTheNamedRegister := by
  unfold Obligations.PoprWritesTheNamedRegister
  refine fun regid s => ⟨fun hid => Faults.of_not_named (exec_popr_of_not_named s hid),
    fun hid => PopFaults.of_access (registerIdNamed_of_lt hid) rfl, ?sp, ?bp, ?pc⟩
  case sp => rintro rfl hsp; exact exec_popr_of_inRange rfl hsp
  case bp => rintro rfl hsp; exact exec_popr_of_inRange rfl hsp
  case pc => rintro rfl hsp; exact exec_popr_of_inRange rfl hsp

/-- Settles O20: one access, at `sp`. -/
theorem dropiOnlyRaisesSp : Obligations.DropiOnlyRaisesSp := by
  unfold Obligations.DropiOnlyRaisesSp
  exact fun s => ⟨PopFaults.of_access rfl rfl, fun hsp => exec_of_inRange rfl (List.forall_mem_singleton.2 hsp)⟩

/-- Settles O22: the peek raises the first fault, the push the second. -/
theorem overiCopiesTheSecond : Obligations.OveriCopiesTheSecond := by
  unfold Obligations.OveriCopiesTheSecond
  refine fun s => ⟨fun hpeek => ?peekFault, fun hpeek hpush => ?pushFault, fun hpeek hpush hwf => ?pushed⟩
  case peekFault => exact Faults.of_access (before := []) rfl rfl (List.forall_mem_nil _) hpeek
  case pushFault => exact Faults.of_access (before := [s.sp + 4]) rfl rfl (List.forall_mem_singleton.2 hpeek) hpush
  case pushed =>
    refine ⟨_, ?_, stored_dword (s := s.setSp (s.sp - 4)) hwf (s.sp - 4) _⟩
    rw [exec_of_inRange (i := .overi) rfl (inRange_two hpeek hpush), effect, setZN_eq]
    rfl

/-- The dwords at `sp` and `sp + 4` share no cell, at the wrap of `sp` neither. -/
theorem dwords_apart (a : Word) : a.toNat + 4 ≤ (a + 4).toNat ∨ (a + 4).toNat + 4 ≤ a.toNat := by bv_omega

/-- Two dwords stored apart are both there, and no cell outside them has changed. -/
theorem Memory.two_writeDwords_apart {m : Memory} (hm : m.wf) {a b : Nat} (h : b + 4 ≤ a ∨ a + 4 ≤ b) (v w : Word) :
    ((m.writeDword a v).writeDword b w).dword b = w ∧ ((m.writeDword a v).writeDword b w).dword a = v ∧
    ∀ k, k < b ∨ b + 4 ≤ k → k < a ∨ a + 4 ≤ k → ((m.writeDword a v).writeDword b w).readByte k = m.readByte k := by
  refine ⟨Memory.dword_writeDword_self (Memory.wf_writeDword hm a v) b w, ?_, fun k hb ha => ?_⟩
  · rw [Memory.dword_writeDword_apart _ w h.symm, Memory.dword_writeDword_self hm]
  · rw [Memory.readByte_writeDword_outside _ w hb, Memory.readByte_writeDword_outside m v ha]

/-- Settles O23: the two stores write the places the two pops read, which share no cell. -/
theorem swapiExchangesTheTopTwo : Obligations.SwapiExchangesTheTopTwo := by
  unfold Obligations.SwapiExchangesTheTopTwo
  refine fun s => ⟨TwoPopFaults.of_access rfl rfl, fun htop hsecond hwf => ?_⟩
  refine ⟨_, ?_, Memory.two_writeDwords_apart hwf (dwords_apart s.sp) (s.dwordAt s.sp) (s.dwordAt (s.sp + 4))⟩
  rw [exec_of_inRange (i := .swapi) rfl (List.forall_mem_cons.2 ⟨htop, inRange_three hsecond hsecond htop⟩), effect,
    setZN_eq]
  rfl

/-! ### Memory access -/

/-- Settles O24: pop, read, and a push back to the place of the pop. -/
theorem fchiFetchesTheDword : Obligations.FchiFetchesTheDword := by
  unfold Obligations.FchiFetchesTheDword
  refine fun s => ⟨PopFaults.of_access rfl rfl, fun hsp haddr => ?addressFault, fun hsp haddr hwf => ?fetched⟩
  case addressFault => exact Faults.of_access (before := [s.sp]) rfl rfl (List.forall_mem_singleton.2 hsp) haddr
  case fetched =>
    refine ⟨_, ?_, stored_dword hwf s.sp _⟩
    rw [exec_of_inRange (i := .fchi) rfl (inRange_three hsp haddr hsp), effect, setZN_eq]
    rfl

/-- With its three accesses in range, STRI stores the second at the address on top (42_memory_ops.md R101). -/
theorem exec_stri_of_inRange {s : State} (htop : s.inRange s.sp) (hsecond : s.inRange (s.sp + 4))
    (haddr : s.inRange (s.dwordAt s.sp)) : exec .stri s = .next (effect .stri s) :=
  exec_of_inRange rfl (inRange_three htop hsecond haddr)

/-- Settles O25: two pops, then the write at the first popped dword. -/
theorem striStoresTheDword : Obligations.StriStoresTheDword := by
  unfold Obligations.StriStoresTheDword
  refine fun s => ⟨TwoPopFaults.of_access rfl rfl, fun htop hsecond haddr => ?storeFault,
    fun htop hsecond haddr hwf => ?stored⟩
  case storeFault =>
    exact Faults.of_access (before := [s.sp, s.sp + 4]) rfl rfl (inRange_two htop hsecond) haddr
  case stored =>
    refine ⟨_, ?_, stored_dword (s := s.setSp (s.sp + 8)) hwf (s.dwordAt s.sp) _⟩
    rw [exec_stri_of_inRange htop hsecond haddr, effect, setZN_eq]
    rfl

/-! ### Bitwise instructions -/

/-- A bitwise instruction replaces the top two by its result and sets zero and negative (43_arith_logic.md R114 to R116). -/
theorem exec_bitwise {i : Instr} {op : Word → Word → Word} {s : State} (hi : i.wellFormed = true)
    (hacc : accesses i s = [s.sp, s.sp + 4, s.sp + 4])
    (heff : effect i s = bitwiseEffect op s)
    (htop : s.inRange s.sp) (hsecond : s.inRange (s.sp + 4)) (hwf : s.mem.wf) :
    ∃ m, exec i s = .next { s with
        sp := s.sp + 4, flags := zeroNegativeOf s.flags (op (s.dwordAt (s.sp + 4)) (s.dwordAt s.sp)), mem := m } ∧
      DwordStored s.mem m (s.sp + 4) (op (s.dwordAt (s.sp + 4)) (s.dwordAt s.sp)) := by
  refine ⟨_, ?_, stored_dword (s := s.setSp (s.sp + 4)) hwf (s.sp + 4) _⟩
  rw [exec_of_inRange hi (hacc ▸ inRange_three htop hsecond hsecond), heff, bitwiseEffect, setZN_eq]
  rfl

/-- Settles O36: the word operation of each instruction works bit by bit. -/
theorem bitwiseInstructionsWorkBitByBit : Obligations.BitwiseInstructionsWorkBitByBit := by
  unfold Obligations.BitwiseInstructionsWorkBitByBit
  rintro s i op (⟨rfl, rfl⟩ | ⟨rfl, rfl⟩ | ⟨rfl, rfl⟩)
  · exact ⟨TwoPopFaults.of_access rfl rfl, fun htop hsecond hwf =>
      ⟨_, (exec_bitwise rfl rfl rfl htop hsecond hwf).imp fun _ h => ⟨fun k _ => BitVec.getLsbD_and, h⟩⟩⟩
  · exact ⟨TwoPopFaults.of_access rfl rfl, fun htop hsecond hwf =>
      ⟨_, (exec_bitwise rfl rfl rfl htop hsecond hwf).imp fun _ h => ⟨fun k _ => BitVec.getLsbD_or, h⟩⟩⟩
  · exact ⟨TwoPopFaults.of_access rfl rfl, fun htop hsecond hwf =>
      ⟨_, (exec_bitwise rfl rfl rfl htop hsecond hwf).imp fun _ h => ⟨fun k _ => BitVec.getLsbD_xor, h⟩⟩⟩

/-! ### Control transfer -/

/-- Settles O38: the pop is checked before the operand, and the condition decides `pc` alone. -/
theorem ifBranchesOnZero : Obligations.IfBranchesOnZero := by
  unfold Obligations.IfBranchesOnZero
  exact fun target s => ⟨PopFaults.of_access rfl rfl,
    fun hsp hpc => Faults.of_access (before := [s.sp]) rfl rfl (List.forall_mem_singleton.2 hsp) hpc,
    fun hsp hpc => exec_of_inRange rfl (inRange_two hsp hpc)⟩

/-- With the top in range, CALL stores the return address in its place and jumps to it (44_control.md R127). -/
theorem exec_call_of_inRange {s : State} (hsp : s.inRange s.sp) :
    exec .call s = .next ((stored s s.sp s.pc).setPc (s.dwordAt s.sp)) :=
  exec_of_inRange rfl (inRange_two hsp hsp)

/-- With the top in range, RET pops it into `pc` (44_control.md R128). -/
theorem exec_ret_of_inRange {s : State} (hsp : s.inRange s.sp) :
    exec .ret s = .next ((s.setSp (s.sp + 4)).setPc (s.dwordAt s.sp)) :=
  exec_of_inRange rfl (List.forall_mem_singleton.2 hsp)

/-- Settles O39: the pop and the push back to its place access the same dword. -/
theorem callReplacesTheTargetByTheReturnAddress : Obligations.CallReplacesTheTargetByTheReturnAddress := by
  unfold Obligations.CallReplacesTheTargetByTheReturnAddress
  exact fun s => ⟨PopFaults.of_access rfl rfl, fun hsp hwf => ⟨_, exec_call_of_inRange hsp, stored_dword hwf s.sp s.pc⟩⟩

/-- Settles O40: one access, at `sp`. -/
theorem retPopsIntoPc : Obligations.RetPopsIntoPc := by
  unfold Obligations.RetPopsIntoPc
  exact fun s => ⟨PopFaults.of_access rfl rfl, exec_ret_of_inRange⟩

/-- Settles O41: RET pops the dword that CALL has stored. -/
theorem retUndoesCall : Obligations.RetUndoesCall := by
  unfold Obligations.RetUndoesCall
  intro s p hsp hwf
  have hret : exec .ret ((stored s s.sp s.pc).setPc p) = _ := exec_ret_of_inRange (s := (stored s s.sp s.pc).setPc p) hsp
  exact ⟨_, _, exec_call_of_inRange hsp, rfl, rfl, hret, Memory.dword_writeDword_self hwf _ _, rfl, rfl, rfl⟩

end Sys2Proof.Machine

/-! Statements over all instructions: each follows from the three ways an instruction can go (`exec_cases`) and one look at
its effect (10_state.md R22 to R32, 60_exceptions.md R140 to R145). -/

namespace Sys2Proof.Machine

/-! ### Status -/

theorem step_eq_next (s : State) : ∃ t, step s = .next t ∧ t.config = s.config := by
  by_cases hrun : s.status = .running
  · rcases fetch_cases s with hpc | ⟨hpc, hd⟩ | ⟨i, hpc, hd⟩
    · exact ⟨_, step_of_not_inRange hrun hpc, takeFault_config _ _⟩
    · exact ⟨_, step_of_invalid hrun hpc hd, takeFault_config _ _⟩
    · obtain ⟨t, ht⟩ := exec_eq_next i (fetched s)
      refine ⟨t, (step_of_decodes hrun hpc hd).trans ht, ?_⟩
      rcases exec_cases ht with ⟨-, -, rfl⟩ | ⟨-, a, -, rfl⟩ | ⟨-, regid, -, -, rfl⟩
      · exact effect_config i (fetched s)
      · exact takeFault_config _ _
      · exact takeFault_config _ _
  · exact ⟨s, step_of_not_running hrun, rfl⟩

/-- Settles O9: a tick changes nothing, or ends in a taken fault, or ends as the instruction does. -/
theorem everyTickEndsInANextState : Obligations.EveryTickEndsInANextState := by
  unfold Obligations.EveryTickEndsInANextState
  exact step_eq_next

theorem stop_iff (s : State) : s.stop = true ↔ s.status = .halted := beq_iff_eq

/-- Settles O16: a taken fault is no halt, and no effect but HALT's touches the status. -/
theorem onlyHaltHalts : Obligations.OnlyHaltHalts := by
  unfold Obligations.OnlyHaltHalts
  intro i s t hrun h
  refine ⟨⟨fun ht => ?_, ?_⟩, stop_iff t⟩
  · obtain ⟨-, rfl⟩ := eq_effect_of_not_faulted h (by rw [ht]; decide)
    by_contra hi
    rw [effect_status s hi, hrun] at ht
    cases ht
  · rintro rfl
    cases (exec_halt s).symm.trans h
    rfl

/-! ### Flags and registers -/

/-- Only the arithmetic engine gives carry and overflow (10_state.md R30). -/
theorem effect_carry_overflow {i : Instr} (s : State) (haddi : i ≠ .addi) (hsubi : i ≠ .subi) :
    (effect i s).flags.carry = s.flags.carry ∧ (effect i s).flags.overflow = s.flags.overflow := by
  cases i with
  | addi => exact absurd rfl haddi
  | subi => exact absurd rfl hsubi
  | popr regid => simp only [effect, setZN_flags, flagsZN_carry, flagsZN_overflow, writeReg_flags, State.setSp_flags, and_self]
  | _ => exact ⟨rfl, rfl⟩

/-- Settles O44: one look at each effect. -/
theorem eachInstructionWritesOnlyItsFlags : Obligations.EachInstructionWritesOnlyItsFlags := by
  unfold Obligations.EachInstructionWritesOnlyItsFlags
  intro i s t h ht
  obtain ⟨-, rfl⟩ := eq_effect_of_not_faulted h ht
  refine ⟨effect_carry_overflow s, fun hm => ?_⟩
  cases i with
  | nop | halt | dropi | jmp | ifz | call | ret => rfl
  | _ => simp [Instr.mnemonic] at hm

theorem registerOf_eq_bp_iff {regid : Byte} : registerOf regid = .bp ↔ regid = 1 := by
  unfold registerOf
  split_ifs <;> simp_all

theorem registerOf_eq_pc_iff {regid : Byte} (h : registerIdNamed regid = true) : registerOf regid = .pc ↔ regid = 2 := by
  revert regid
  decide

/-- POPR leaves `bp` alone unless it names it. -/
theorem effect_popr_bp {regid : Byte} (s : State) (h : registerOf regid ≠ .bp) : (effect (.popr regid) s).bp = s.bp :=
  (readReg_writeReg _ _ _ .bp).trans (if_neg h.symm)

/-- POPR leaves `pc` alone unless it names it. -/
theorem effect_popr_pc {regid : Byte} (s : State) (h : registerOf regid ≠ .pc) : (effect (.popr regid) s).pc = s.pc :=
  (readReg_writeReg _ _ _ .pc).trans (if_neg h.symm)

/-- Settles O47: POPR writes the register its id names, and no other effect has `bp` in it. -/
theorem onlyPoprWritesBp : Obligations.OnlyPoprWritesBp := by
  unfold Obligations.OnlyPoprWritesBp
  intro i s t h ht hne
  obtain ⟨-, rfl⟩ := eq_effect_of_not_faulted h ht
  cases i with
  | popr regid => exact effect_popr_bp s fun hr => hne (congrArg Instr.popr (registerOf_eq_bp_iff.1 hr))
  | _ => rfl

/-- Settles O48: PUSHI passes its operand, POPR writes the register its id names, and no other effect has `pc` in it but
those of the control transfers. -/
theorem onlyControlTransfersSetPc : Obligations.OnlyControlTransfersSetPc := by
  unfold Obligations.OnlyControlTransfersSetPc
  intro i s t h ht hm hne
  obtain ⟨hi, rfl⟩ := eq_effect_of_not_faulted h ht
  cases i with
  | popr regid => exact effect_popr_pc s fun hr => hne (congrArg Instr.popr ((registerOf_eq_pc_iff hi).1 hr))
  | jmp | ifz | call | ret => simp [Instr.mnemonic] at hm
  | _ => rfl

/-- Settles O46: the fetch overwrites `IR` before anything else happens, so the handler starts in the same state. -/
theorem noTickReadsTheOldInstructionWord : Obligations.NoTickReadsTheOldInstructionWord := by
  unfold Obligations.NoTickReadsTheOldInstructionWord
  intro s w hrun
  rcases fetch_cases s with hpc | ⟨hpc, hd⟩ | ⟨i, hpc, hd⟩
  · exact ⟨_, _, step_of_not_inRange hrun hpc, step_of_not_inRange (s := s.setIr w) hrun hpc, rfl, rfl,
      fun h => absurd rfl h⟩
  · exact ⟨_, _, step_of_invalid hrun hpc hd, step_of_invalid (s := s.setIr w) hrun hpc hd, rfl, rfl,
      fun h => absurd rfl h⟩
  · obtain ⟨t, ht⟩ := exec_eq_next i (fetched s)
    exact ⟨t, t, (step_of_decodes hrun hpc hd).trans ht, (step_of_decodes (s := s.setIr w) hrun hpc hd).trans ht,
      rfl, rfl, fun _ => rfl⟩

/-! ### Faults -/

/-- Settles O51: an ill-formed instruction takes the fault of its register id; a well-formed one has its effect, which leaves
the record empty, or takes the fault of a dword out of range. -/
theorem invalidRegisterExactlyForIllFormed : Obligations.InvalidRegisterExactlyForIllFormed := by
  unfold Obligations.InvalidRegisterExactlyForIllFormed
  intro i s hempty
  refine ⟨fun hi => ?illFormed, fun hi => ?wellFormed⟩
  case illFormed =>
    obtain ⟨regid, -, -, hexec⟩ := exec_of_illFormed hi s
    exact ⟨regid, Faults.of_not_named hexec⟩
  case wellFormed =>
    obtain ⟨t, ht⟩ := exec_eq_next i s
    refine ⟨t, ht, fun regid offset hrec => ?_⟩
    rcases exec_cases ht with ⟨-, -, rfl⟩ | ⟨-, a, -, rfl⟩ | ⟨hill, -⟩
    · rw [effect_faultRecord, hempty] at hrec
      cases hrec
    · cases hrec
    · rw [hi] at hill
      cases hill

/-- What the record of a tick from `s` may say (60_exceptions.md R141 to R143). -/
def RecordsExactly (s : State) : Fault → Prop
  | .outOfRangeAccess a => ¬s.inRange a
  | .invalidOpcode op offset => offset = s.pc ∧ op = opcodeField (s.dwordAt s.pc) ∧ ∀ m, s.config.opc.value m ≠ op
  | .invalidRegister regid offset => offset = s.pc ∧ regid = regidField (s.dwordAt s.pc) ∧ 3 ≤ regid.toNat

/-- The tick of a running machine takes a fault that it records exactly, or does not fault. -/
theorem step_cases {s t : State} (hrun : s.status = .running) (h : step s = .next t) :
    (∃ s' f, t = takeFault s' f ∧ RecordsExactly s f) ∨ t.status ≠ .faulted := by
  rcases fetch_cases s with hpc | ⟨hpc, hd⟩ | ⟨i, hpc, hd⟩
  · cases (step_of_not_inRange hrun hpc).symm.trans h
    exact .inl ⟨s, _, rfl, hpc⟩
  · cases (step_of_invalid hrun hpc hd).symm.trans h
    exact .inl ⟨s, _, rfl, rfl, rfl, decodeWords_eq_none_iff.1 hd⟩
  · rcases exec_cases ((step_of_decodes hrun hpc hd).symm.trans h) with
      ⟨-, -, rfl⟩ | ⟨-, a, ha, rfl⟩ | ⟨-, regid, hreg, hid, rfl⟩
    · exact .inr (effect_not_faulted i (s := fetched s) hrun)
    · exact .inl ⟨_, _, rfl, ha⟩
    · exact .inl ⟨_, _, rfl, BitVec.add_sub_cancel s.pc 4, regid_of_decodeWords hd hreg, hid⟩

theorem tick_of_takeFault {s s' : State} {f : Fault} (hrun : s.status = .running) (h : step s = .next (takeFault s' f)) :
    tick s = .next (takeFault s' f, .fault f) := by
  simp only [tick, h, tickResult, hrun, takeFault_status, takeFault_faultRecord]

theorem tick_of_not_faulted {s t : State} (h : step s = .next t) (ht : t.status ≠ .faulted) : tick s = .next (t, .ok) := by
  simp only [tick, h, tickResult]
  split
  · rename_i hfaulted _
    exact absurd hfaulted ht
  · rfl

/-- Settles O50: `Tick` returns the fault its step has taken, and `Ok` where it took none. -/
theorem faultRecordsAreExact : Obligations.FaultRecordsAreExact := by
  unfold Obligations.FaultRecordsAreExact
  intro s t hrun h
  refine ⟨tick_of_not_faulted h, fun ht => ?_⟩
  rcases step_cases hrun h with ⟨s', f, rfl, hexact⟩ | hok
  · refine ⟨f, takeFault_faultRecord s' f, tick_of_takeFault hrun h, ?_⟩
    cases f <;> exact hexact
  · exact absurd ht hok

end Sys2Proof.Machine

/-! Memory as cells (20_memory.md R40 to R44), and the laws of the arithmetic engine (43_arith_logic.md R108, R109). -/

namespace Sys2Proof.Machine

/-! ### Cells and dwords -/

/-- An appended byte is the low digit to the base 256. -/
theorem toNat_append_byte {n : Nat} (hi : BitVec n) (lo : Byte) : (hi ++ lo).toNat = 2 ^ 8 * hi.toNat + lo.toNat := by
  rw [BitVec.toNat_append, ← Nat.shiftLeft_add_eq_or_of_lt lo.isLt, Nat.shiftLeft_eq, Nat.mul_comm]

/-- The little-endian sum of four cells (R41). -/
theorem toNat_dwordOfBytes (b0 b1 b2 b3 : Byte) : (dwordOfBytes b0 b1 b2 b3).toNat =
    b0.toNat + 2 ^ 8 * b1.toNat + 2 ^ 16 * b2.toNat + 2 ^ 24 * b3.toNat := by
  simp only [dwordOfBytes, toNat_append_byte]
  omega

/-- Byte `j` of a dword read is the cell `j` above its address. -/
theorem dwordByte_dword (m : Memory) (a : Nat) {j : Nat} (hj : j < 4) : dwordByte (m.dword a) j = m.readByte (a + j) := by
  obtain ⟨h0, h1, h2, h3⟩ :=
    dwordByte_dwordOfBytes (m.readByte a) (m.readByte (a + 1)) (m.readByte (a + 2)) (m.readByte (a + 3))
  match j, hj with
  | 0, _ => exact h0
  | 1, _ => exact h1
  | 2, _ => exact h2
  | 3, _ => exact h3

/-- A cell that reads other than 0 is listed. -/
theorem Memory.mem_of_readByte {m : Memory} {a : Nat} (h : m.readByte a ≠ 0) : (a, m.readByte a) ∈ m := by
  induction m with
  | nil => exact absurd rfl h
  | cons c rest ih =>
    simp only [Memory.readByte] at h ⊢
    by_cases hac : a = c.1
    · rw [if_pos hac, hac]
      exact List.mem_cons_self
    · rw [if_neg hac] at h ⊢
      exact List.mem_cons_of_mem c (ih h)

/-- A listed cell reads as listed, since no address is listed twice. -/
theorem Memory.readByte_of_mem {m : Memory} (hsorted : m.Pairwise fun c d => c.1 < d.1) {c : Host.Cell} (hc : c ∈ m) :
    m.readByte c.1 = c.2 := by
  induction m with
  | nil => cases hc
  | cons d rest ih =>
    obtain ⟨hd, hrest⟩ := List.pairwise_cons.1 hsorted
    simp only [Memory.readByte]
    rcases List.mem_cons.1 hc with rfl | hc
    · rw [if_pos rfl]
    · rw [if_neg (Nat.ne_of_gt (hd c hc)), ih hrest hc]

/-- The cells a canonical memory lists are those that read other than 0, with what they read. -/
theorem Memory.mem_iff_readByte {m : Memory} (hm : m.wf) (c : Host.Cell) : c ∈ m ↔ c.2 ≠ 0 ∧ m.readByte c.1 = c.2 := by
  obtain ⟨hsorted, hnz⟩ := Memory.wf_iff.1 hm
  refine ⟨fun hc => ⟨hnz c hc, Memory.readByte_of_mem hsorted hc⟩, fun ⟨hne, hread⟩ => ?_⟩
  have hlisted : (c.1, m.readByte c.1) ∈ m := Memory.mem_of_readByte (hread ▸ hne)
  rwa [hread] at hlisted

theorem Memory.nodup_of_wf {m : Memory} (hm : m.wf) : m.Nodup :=
  (Memory.wf_iff.1 hm).1.imp fun hlt he => Nat.ne_of_lt hlt (congrArg Prod.fst he)

/-! ### The obligations on memory -/

/-- Settles O27: the range check of R43 on unbounded integers, and the sum of the four cells. -/
theorem memReadIsLittleEndian : Obligations.MemReadIsLittleEndian := by
  unfold Obligations.MemReadIsLittleEndian
  intro s a hsize
  have hrange : a.toNat + 3 ≤ s.config.memSize - 1 ↔ s.inRange a := Nat.le_sub_one_iff_lt (by omega)
  rw [hrange]
  exact ⟨fun hin => ⟨_, memRead_of_inRange hin, toNat_dwordOfBytes _ _ _ _⟩, memRead_of_not_inRange⟩

/-- Settles O28: byte `j` of the dword read is cell `k + j` from the written address, in the written dword or past it. -/
theorem overlappingDwordsShareBytes : Obligations.OverlappingDwordsShareBytes := by
  unfold Obligations.OverlappingDwordsShareBytes
  intro m a k j v hm _ hj
  have hbyte : ((m.writeDword a v).dword (a + k)).extractLsb' (8 * j) 8 = (m.writeDword a v).readByte (a + k + j) :=
    dwordByte_dword _ _ hj
  rw [hbyte, Nat.add_assoc]
  split_ifs with hkj
  · exact Memory.readByte_writeDword hm a v hkj
  · exact Memory.readByte_writeDword_outside m v (by omega)

/-- Settles O29: what reads tell of two canonical memories are their lists' members, and a list with rising addresses is
given by its members. -/
theorem canonicalMemoriesThatReadAlikeAreEqual : Obligations.CanonicalMemoriesThatReadAlikeAreEqual := by
  unfold Obligations.CanonicalMemoriesThatReadAlikeAreEqual
  intro m m' hm hm' hread
  have hmem (c : Host.Cell) : c ∈ m ↔ c ∈ m' := by
    rw [Memory.mem_iff_readByte hm, Memory.mem_iff_readByte hm', hread]
  have hperm : m.Perm m' := (List.perm_ext_iff_of_nodup (Memory.nodup_of_wf hm) (Memory.nodup_of_wf hm')).2 hmem
  exact hperm.eq_of_pairwise (fun _ _ _ _ h h' => absurd h' h.asymm) (Memory.wf_iff.1 hm).1 (Memory.wf_iff.1 hm').1

/-! ### The obligations on the engine -/

section engine
variable {n : Nat} (a b : BitVec n)

theorem addEngine_carry : (addEngine a b).2.carry = true ↔ a.toNat + b.toNat ≥ 2 ^ n := by
  have hpos : 0 < 2 ^ n := Nat.two_pow_pos n
  simp only [addEngine_flags, decide_eq_true_eq]
  omega

theorem addEngine_comm : addEngine a b = addEngine b a := by
  rw [addEngine_eq, addEngine_eq, BitVec.add_comm, Nat.add_comm, Bool.and_comm (!a.getLsbD (n - 1))]

theorem subEngine_self :
    subEngine a a = (0, { zero := true, negative := false, carry := false, overflow := false }) := by
  rw [subEngine_eq, BitVec.sub_self]
  simp

/-- Zero with carry: the unbounded sum is a positive multiple of `2^n` below `2 * 2^n`. -/
theorem addEngine_zero_and_carry :
    (addEngine a b).2.zero = true ∧ (addEngine a b).2.carry = true ↔ a.toNat + b.toNat = 2 ^ n := by
  have hzero : (addEngine a b).2.zero = true ↔ (a.toNat + b.toNat) % 2 ^ n = 0 := by
    simp only [addEngine_eq, decide_eq_true_iff, ← BitVec.toNat_inj, BitVec.toNat_add, BitVec.ofNat_eq_ofNat,
      BitVec.toNat_zero]
  rw [hzero, addEngine_carry]
  have ha := a.isLt
  have hb := b.isLt
  constructor
  · rintro ⟨hmod, hge⟩
    rw [Nat.mod_eq_sub_mod hge, Nat.mod_eq_of_lt (by omega)] at hmod
    omega
  · intro h
    exact ⟨by rw [h, Nat.mod_self], h.ge⟩

end engine

/-- Settles O32: the engine's results and flags are those of the wrap-around sum and difference. -/
theorem engineLaws : Obligations.EngineLaws := by
  unfold Obligations.EngineLaws
  intro w _ a b
  refine ⟨?cancel, addEngine_carry a b, ?borrow, addEngine_comm a b, subEngine_self a, addEngine_zero_and_carry a b⟩
  case cancel => rw [subEngine_result, addEngine_result, BitVec.add_sub_cancel]
  case borrow => rw [subEngine_flags, decide_eq_true_iff]

/-- Settles O33: true signed overflow by the signs of operands and result, at each combination of the operands' signs. -/
theorem overflowIsOneSided : Obligations.OverflowIsOneSided := by
  unfold Obligations.OverflowIsOneSided
  intro w _ a b
  rw [addEngine_flags, subEngine_flags, BitVec.saddOverflow_eq, BitVec.ssubOverflow_eq]
  constructor
  · cases a.msb <;> cases b.msb <;> simp
  · cases a.msb <;> cases b.msb <;> simp

end Sys2Proof.Machine

/-! Construct, Run and Inspect (70_reset_and_hazards.md R170, 40_engine.md R74 to R76, 10_state.md R28 to R33). -/

namespace Sys2Proof.Machine

/-! ### Construct and the runs from it -/

/-- The machine before the image load satisfies the invariant. -/
theorem zeroed_inv {c : Config} (hc : c.wf) : (State.zeroed c).inv :=
  ⟨hc, Memory.wf_nil, Memory.below_nil c.memSize, by simp⟩

/-- Settles O11: the reset machine is the zeroed reference machine. -/
theorem resetSatisfiesInvariant : Obligations.ResetSatisfiesInvariant := by
  unfold Obligations.ResetSatisfiesInvariant
  exact zeroed_inv (c := Config.reference) (by decide)

theorem construct_inv {c : Config} (src : List Byte) (hc : c.wf) : (construct c src).inv := by
  obtain ⟨-, hwf, hbelow, hrec⟩ := zeroed_inv hc
  exact ⟨hc, wf_loadImage hwf c.memSize 0 src, below_loadImage hbelow 0 src, hrec⟩

/-- Settles O12: the image load keeps what the zeroed machine satisfies. -/
theorem constructSatisfiesInvariant : Obligations.ConstructSatisfiesInvariant := by
  unfold Obligations.ConstructSatisfiesInvariant
  exact fun c src hc => construct_inv src hc

/-- What every step keeps holds after any number of steps. -/
theorem core_run_keeps {P : State → Prop} (hkeeps : ∀ s t, P s → step s = .next t → P t) (n : Nat) {s : State}
    (hs : P s) : ∃ t, Host.Core.run Sys2Proof.core n s = .next t ∧ P t := by
  induction n generalizing s with
  | zero => exact ⟨s, core_run_zero s, hs⟩
  | succ n ih =>
    obtain ⟨t, ht, -⟩ := step_eq_next s
    rw [core_run_succ n ht]
    exact ih (hkeeps s t hs ht)

/-- Settles O13: every step keeps the invariant and the parameters. -/
theorem invariantHoldsAlongEveryRun : Obligations.InvariantHoldsAlongEveryRun := by
  unfold Obligations.InvariantHoldsAlongEveryRun
  intro c src n hc
  refine core_run_keeps (P := fun s => s.inv ∧ s.config = c) (fun s t ⟨hinv, hconf⟩ h => ?_) n
    ⟨construct_inv src hc, construct_config c src⟩
  obtain ⟨t', ht', hconf'⟩ := step_eq_next s
  cases ht'.symm.trans h
  exact ⟨stepKeepsInvariant s t hinv h, hconf'.trans hconf⟩

/-- Settles O52: the image load touches memory only, and `MEM_SIZE - 4` is a dword. -/
theorem constructSetsResetValues : Obligations.ConstructSetsResetValues := by
  unfold Obligations.ConstructSetsResetValues
  rintro c src ⟨hfour, hmax, -⟩
  have hsp : (u32 (c.memSize - 4)).toNat = c.memSize - 4 := (BitVec.toNat_ofNat _ _).trans (Nat.mod_eq_of_lt (by omega))
  exact ⟨rfl, rfl, hsp, rfl, rfl, rfl, rfl, rfl, rfl⟩

/-! ### Run -/

theorem runEnd_of_running {s : State} (h : s.status = .running) : runEnd s = .notYet s := by simp only [runEnd, h]

theorem run_of_not_running (n : Nat) {s : State} (h : s.status ≠ .running) : run n s = runEnd s := by
  cases n with
  | zero => rfl
  | succ n =>
    cases hs : s.status with
    | running => exact absurd hs h
    | halted => simp only [run, hs]
    | faulted => simp only [run, hs]

theorem run_succ_of_running (n : Nat) {s t : State} (h : s.status = .running) (hstep : step s = .next t) :
    run (n + 1) s = run n t := by simp only [run, h, hstep]

/-- A state that a step does not change is not changed by any number of steps. -/
theorem core_run_of_fixed {s : State} (h : step s = .next s) (n : Nat) :
    Host.Core.run Sys2Proof.core n s = .next s := by
  induction n with
  | zero => exact core_run_zero s
  | succ n ih => rw [core_run_succ n h, ih]

/-- Settles O54: a step at a time while the machine runs, and nothing once it has stopped. -/
theorem runIsIteratedTick : Obligations.RunIsIteratedTick := by
  unfold Obligations.RunIsIteratedTick
  intro n
  induction n with
  | zero => exact fun s => ⟨s, core_run_zero s, rfl⟩
  | succ n ih =>
    intro s
    by_cases hrun : s.status = .running
    · obtain ⟨t, ht, -⟩ := step_eq_next s
      rw [core_run_succ n ht, run_succ_of_running n hrun ht]
      exact ih t
    · exact ⟨s, core_run_of_fixed (step_of_not_running hrun) (n + 1), run_of_not_running (n + 1) hrun⟩

/-- Settles O55: on a stopped machine `Run` is its end, whatever the budget. -/
theorem runOfAStoppedMachine : Obligations.RunOfAStoppedMachine := by
  unfold Obligations.RunOfAStoppedMachine
  intro n s
  have hend (h : s.status ≠ .running) : run n s = runEnd s := run_of_not_running n h
  refine ⟨fun hs hsp => ?_, fun hs hsp => ⟨takeFault s (.outOfRangeAccess s.sp), ?_, rfl, rfl⟩, fun hs => ?_⟩
  · simp only [hend (by rw [hs]; decide), runEnd, hs, memRead_of_inRange hsp]
  · simp only [hend (by rw [hs]; decide), runEnd, hs, memRead_of_not_inRange hsp]
  · simp only [hend (by rw [hs]; decide), runEnd, hs]

/-- Settles O56: by induction on the budget; a run that ends with no budget left is of a stopped machine. -/
theorem largerBudgetKeepsTheResult : Obligations.LargerBudgetKeepsTheResult := by
  unfold Obligations.LargerBudgetKeepsTheResult
  intro n k
  induction n with
  | zero =>
    intro s hs
    have hstopped : s.status ≠ .running := fun hrun => hs s (runEnd_of_running hrun)
    rw [run_of_not_running _ hstopped, run_of_not_running _ hstopped]
  | succ n ih =>
    intro s hs
    by_cases hrun : s.status = .running
    · obtain ⟨t, ht, -⟩ := step_eq_next s
      rw [run_succ_of_running n hrun ht] at hs ⊢
      rw [Nat.add_right_comm, run_succ_of_running (n + k) hrun ht, ih t hs]
    · rw [run_of_not_running _ hrun, run_of_not_running _ hrun]

/-! ### A jump to itself, and a store over the next instruction -/

/-- A running state that a step does not change is not yet terminated under any budget (R76). -/
theorem run_of_fixed {s : State} (hrun : s.status = .running) (h : step s = .next s) (n : Nat) : run n s = .notYet s := by
  induction n with
  | zero => exact runEnd_of_running hrun
  | succ n ih => rw [run_succ_of_running n hrun h, ih]

/-- The tick of a jump to itself loads `IR` and changes nothing else. -/
theorem step_selfJump {s : State} (hrun : s.status = .running) (hpc : s.inRange s.pc) (hop : s.inRange (s.pc + 4))
    (hd : decodeWords s.config.opc (s.dwordAt s.pc) (s.dwordAt (s.pc + 4)) = some (.jmp s.pc)) :
    step s = .next (s.setIr (s.dwordAt s.pc)) :=
  (step_of_decodes hrun hpc hd).trans (exec_jmp_of_inRange (s := fetched s) s.pc hop)

/-- Settles O42: after its first tick the machine is a fixed point of the step. -/
theorem jumpToItselfNeverStops : Obligations.JumpToItselfNeverStops := by
  unfold Obligations.JumpToItselfNeverStops
  intro s n hrun hpc hop hd
  have hfirst : step s = .next (s.setIr (s.dwordAt s.pc)) := step_selfJump hrun hpc hop hd
  have hfixed : step (s.setIr (s.dwordAt s.pc)) = .next (s.setIr (s.dwordAt s.pc)) :=
    step_selfJump (s := s.setIr (s.dwordAt s.pc)) hrun hpc hop hd
  have halive : s.status ≠ .faulted := by rw [hrun]; decide
  constructor
  · cases n with
    | zero => exact ⟨s, core_run_zero s, halive⟩
    | succ n => exact ⟨_, (core_run_succ n hfirst).trans (core_run_of_fixed hfixed n), halive⟩
  · rw [run_succ_of_running n hrun hfirst]
    exact run_of_fixed (s := s.setIr (s.dwordAt s.pc)) hrun hfixed n

/-- Settles O43: the store leaves the dword where the next fetch reads. -/
theorem storeIsSeenByTheNextFetch : Obligations.StoreIsSeenByTheNextFetch := by
  unfold Obligations.StoreIsSeenByTheNextFetch
  intro s hwf hrun hpc hnext htop hsecond hd haddr
  have hstep : step s = .next (effect .stri (fetched s)) :=
    (step_of_decodes hrun hpc hd).trans (exec_stri_of_inRange (s := fetched s) htop hsecond (haddr ▸ hnext))
  have hword : (effect .stri (fetched s)).dwordAt (s.pc + 4) = s.dwordAt (s.sp + 4) := by
    rw [← haddr]
    exact Memory.dword_writeDword_self hwf _ _
  refine ⟨_, hstep, rfl, hword, fun j hj => ?_⟩
  rw [← hword] at hj ⊢
  exact step_of_decodes (s := effect .stri (fetched s)) hrun hnext hj

/-! ### Status word, masks and Inspect -/

theorem isStatusWord_statusWord (f : Flags) : IsStatusWord f (statusWord f) := by
  obtain ⟨z, n, c, v⟩ := f
  revert z n c v
  unfold IsStatusWord
  decide

/-- The mask selects a flag exactly when its bit is set, and with the flag's value (R28). -/
theorem mem_selectFlags {f : Flags} {mask : BitVec 4} {name : FlagName} {b : Bool} :
    (name, b) ∈ selectFlags f mask ↔ mask.getLsbD (flagBit name) = true ∧ b = readFlag f name := by
  have hall : name ∈ [FlagName.overflow, .zero, .carry, .negative] := by cases name <;> decide
  simp only [selectFlags, List.mem_map, List.mem_filter, Prod.mk.injEq]
  constructor
  · rintro ⟨_, ⟨-, hbit⟩, rfl, rfl⟩
    exact ⟨hbit, rfl⟩
  · rintro ⟨hbit, rfl⟩
    exact ⟨name, ⟨hall, hbit⟩, rfl, rfl⟩

theorem maskSelects_selectFlags (f : Flags) (mask : BitVec 4) : MaskSelects f mask (selectFlags f mask) :=
  ⟨fun _ => mem_selectFlags, fun _ => mem_selectFlags, fun _ => mem_selectFlags, fun _ => mem_selectFlags⟩

/-- Settles O49: the word bit by bit, the masked read name by name. -/
theorem statusWordAndSelect : Obligations.StatusWordAndSelect := by
  unfold Obligations.StatusWordAndSelect
  exact fun f mask => ⟨isStatusWord_statusWord f, maskSelects_selectFlags f mask⟩

theorem inspect_memory (s : State) (a : Word) :
    (s.inRange a → inspect s (.memory a) = .word (s.dwordAt a)) ∧
    (¬s.inRange a → inspect s (.memory a) = .error (.outOfRangeAccess a)) :=
  ⟨fun h => by simp only [inspect, memRead_of_inRange h], fun h => by simp only [inspect, memRead_of_not_inRange h]⟩

theorem inspect_registerId_of_not_named (s : State) {regid : Byte} (h : 3 ≤ regid.toNat) :
    inspect s (.registerId regid) = .noRegister := by simp only [inspect, regOfId_eq_none h]

/-- Settles O57: each query answers a field of the state, through the id, the range check or the mask. -/
theorem inspectAnswersFromTheState : Obligations.InspectAnswersFromTheState := by
  unfold Obligations.InspectAnswersFromTheState
  intro s a regid mask
  obtain ⟨hmem, hbad⟩ := inspect_memory s a
  exact ⟨rfl, rfl, rfl, rfl, rfl, rfl, inspect_registerId_of_not_named s, hmem, hbad,
    ⟨_, rfl, maskSelects_selectFlags s.flags mask⟩, ⟨_, rfl, isStatusWord_statusWord s.flags⟩,
    ⟨_, rfl, stop_iff s⟩, rfl, rfl, rfl⟩

/-- Settles O58: the code is given by the fault's constructor. -/
theorem faultCodesAreOneTwoThree : Obligations.FaultCodesAreOneTwoThree := by
  unfold Obligations.FaultCodesAreOneTwoThree
  exact fun _ _ _ _ => ⟨rfl, rfl, rfl⟩

end Sys2Proof.Machine
